-- ==== Sys2Proof/Word.lean ====
section
/-! DEFINITION. The word type of the block: bytes. The widths of the other registers follow from the parameters:
Machine/Parameters.lean. -/

namespace Sys2Proof

/-- A byte: 8 bits, bit 7 the most significant (R11, R35). -/
abbrev Byte := BitVec 8

end Sys2Proof
end

