-- ==== Sys2Proof/Config.lean ====
section
/-! DEFINITION. What an elaboration fixes: the parameter record with the constraints of R8, and the values the spec
leaves free, each an uninterpreted constant. -/

namespace Sys2Proof

/-- The parameters of R6, fixed when the hardware is elaborated. They are no state (R10, R13): every definition of the model
takes them as an argument (U10), the machine behind the host's interface is the one of their default values. -/
structure Params where
  /-- START_BYTE -/
  startByte : Byte
  /-- END_BYTE -/
  endByte : Byte
  /-- ESC_BYTE -/
  escByte : Byte
  /-- ESC_MASK -/
  escMask : Byte
  /-- MAX_PACKET_LEN -/
  maxPacketLen : Nat
  deriving DecidableEq, Repr

/-- Why a parameter set is refused at elaboration: the four constraints of R8, in its order. -/
inductive ParamError where
  | markersNotDistinct
  | noCapacity
  | markerHasMaskBits
  | escapedMarkerIsMarker
  deriving DecidableEq, Repr

/-- The three marker values. -/
def Params.markers (p : Params) : List Byte := [p.startByte, p.endByte, p.escByte]

/-- Is `b` one of the three marker values (a control byte, R12)? -/
def Params.isMarker (p : Params) (b : Byte) : Bool := p.markers.contains b

/-- The elaboration-time check of R8: `none` if the set is legal, else the first constraint it breaks. -/
def Params.check (p : Params) : Option ParamError :=
  if ¬ p.markers.Nodup then some .markersNotDistinct
  else if p.maxPacketLen < 1 then some .noCapacity
  else if ¬ ∀ m ∈ p.markers, m &&& p.escMask = 0 then some .markerHasMaskBits
  else if ¬ ∀ m ∈ p.markers, p.isMarker (m ||| p.escMask) = false then some .escapedMarkerIsMarker
  else none

/-- A legal parameter set (R8). -/
def Params.legal (p : Params) : Bool := p.check == none

/-- CTX_W of the machine behind the host's interface: the spec leaves the context's width open (R7, R119, U7).
DESIGN CHOICE (log entry 2), safe: uninterpreted, so nothing can be proved of it. -/
opaque Config.ctxW : Nat

/-- The type of that machine's context: at level P a constant of CTX_W bits (R7, D7). The model of level T takes any type. -/
abbrev Config.Ctx := BitVec Config.ctxW

/-- The context given at that machine's construction: the spec leaves the value open (R7, U7).
DESIGN CHOICE (log entry 2), safe: uninterpreted, so nothing can be proved of its value. -/
opaque Config.ctx : Config.Ctx

/-- `pkt_len`, of `w` bits, in a cycle with `pkt_valid = 0` (R131, U5): a free value (log entry 5), safe. -/
opaque Config.freeLen (w : Nat) : Nat → BitVec w

/-- `pkt_ctx`, of `w` bits, in a cycle with `pkt_valid = 0` (R131, U5): a free value (log entry 5), safe. -/
opaque Config.freeCtx (w : Nat) : Nat → BitVec w

/-- `pkt_rdata` in a cycle with `pkt_valid = 0`, for each index of `w` bits (R131, U5): a free value (log entry 5), safe. -/
opaque Config.freeRdata (w : Nat) : Nat → BitVec w → Byte

/-- `in_ready` outside the phase Live (R157, U6): a free value (log entry 5), safe. -/
opaque Config.freeInReady : Nat → Bool

/-- `pkt_valid` outside the phase Live (R157, U6): a free value (log entry 5), safe. -/
opaque Config.freePktValid : Nat → Bool

end Sys2Proof
end

