-- ==== Sys2Proof/Machine/Parameters.lean ====
section
/-! DEFINITION. The widths a parameter set gives the registers (R7, R119), and the default values of the parameters (R6). The
spec calls the literals unaudited (U10), so they stand here once, under their names, and everything else uses the names. -/

namespace Sys2Proof

/-- The least `v` from `w` on with `n < 2 ^ v`, if it is among the next `fuel`. -/
def leastWidthFrom (n : Nat) : Nat → Nat → Nat
  | 0, w => w
  | fuel + 1, w => if n < 2 ^ w then w else leastWidthFrom n fuel (w + 1)

/-- The least `w` with `n < 2 ^ w`. -/
def leastWidth (n : Nat) : Nat := leastWidthFrom n n 0

/-- CURSOR_W, the least `w` with `2 ^ w > MAX_PACKET_LEN` (R7). -/
def Params.cursorW (p : Params) : Nat := leastWidth p.maxPacketLen

/-- RADDR_W, the least `w` with `2 ^ w >= MAX_PACKET_LEN` (R119, C11). -/
def Params.raddrW (p : Params) : Nat := leastWidth (p.maxPacketLen - 1)

/-- The CURSOR register and the reported length, unsigned (R7, R15, D26). -/
abbrev Params.Cursor (p : Params) := BitVec p.cursorW

/-- The read port's index (R119). -/
abbrev Params.Raddr (p : Params) := BitVec p.raddrW

/-- The default parameter set: the values of R6. -/
def Config.params : Params :=
  { startByte := 0x02, endByte := 0x03, escByte := 0x10, escMask := 0x20, maxPacketLen := 512 }

/-- MAX_PACKET_LEN of the default set, the capacity of its buffer (R6, R9). -/
abbrev Config.maxPacketLen : Nat := Config.params.maxPacketLen

/-- HAS_SINK by default: a callback is registered (R7). -/
def Config.hasSink : Bool := true

end Sys2Proof
end

