-- ==== Sys2Proof/Machine/State.lean ====
section
/-! DEFINITION. The state of one decoder (R13), what its environment has still to do, and what has been observed; the
reasons a step can stop; the state after reset (R29). -/

namespace Sys2Proof.Machine

/-- The lifecycle phase (R25, R112). -/
inductive Phase where
  /-- Before CREATE, at the ports before the first reset: all other state is unspecified (R157). -/
  | unconstructed
  /-- After CREATE or reset: the rules of the byte classes apply. -/
  | live
  /-- After DESTROY. -/
  | destroyed
  deriving DecidableEq, Repr

/-- One dispatch event: one invocation of the completion callback (R75). -/
structure Dispatch (P : Params := Config.params) (C : Type := Config.Ctx) where
  /-- the context given at construction -/
  ctx : C
  /-- the decoded length -/
  len : P.Cursor
  /-- the decoded bytes in arrival order -/
  data : List Byte
  deriving DecidableEq, Repr

/-- The input pins at one rising edge of `clk` (R119). -/
structure Pins (P : Params := Config.params) where
  rst : Bool
  inValid : Bool
  inData : Byte
  pktReady : Bool
  pktRaddr : P.Raddr
  deriving DecidableEq, Repr

/-- One thing the environment does to the block: a host operation of level T (R116) or a clock edge of level P (R120). -/
inductive Input (P : Params := Config.params) (C : Type := Config.Ctx) where
  /-- CREATE, with whether a callback is given, and the context (R100) -/
  | create (hasSink : Bool) (ctx : C)
  /-- FEED of what is left of a chunk (R102) -/
  | feed (chunk : List Byte)
  /-- DESTROY (R110) -/
  | destroy
  /-- one rising clock edge (R135) -/
  | edge (pins : Pins P)
  deriving DecidableEq, Repr

/-- The buffer: its cells that do not hold 0x00, by index. An unlisted cell reads 0x00, as construction leaves it (R29). -/
abbrev Memory := List Host.Cell

/-- Why the machine stops with a fault. -/
inductive Fault where
  /-- An access to a cell of BUF that does not exist (R32, R43). Raised by the memory operations, in states with
  CURSOR above MAX_PACKET_LEN only, which no run reaches (R19, R36). Safe (log entry 1). -/
  | bufferIndex (a : Nat)
  deriving DecidableEq, Repr

/-- Why the machine gives an operation no meaning. -/
inductive Refusal where
  /-- An instruction with no meaning yet; raised by exec's arms only (none today). Safe. -/
  | notModelled (mnemonic : String)
  /-- An operation before CREATE, at the ports a byte offered before the first reset (R111, R157, U6). Raised by the
  byte classes, FEED, DESTROY and the clock edge. Safe. -/
  | beforeCreate
  /-- An operation on a destroyed decoder (R111, R167, U1, U2). Raised by the byte classes, FEED, DESTROY and the clock
  edge. Safe. -/
  | afterDestroy
  /-- FEED or DESTROY while the sink still has a dispatch, that is from inside the callback (R109, R169, U3). Safe. -/
  | reentrantUse
  /-- CREATE of a decoder that already exists: a CREATE makes another one (R112). Safe (log entry 6). -/
  | createdTwice
  deriving DecidableEq, Repr

/-- One decoder and its surroundings, for the elaboration parameters `P` (R6) and a context of type `C` (R7, D7, U7); at
level P the type is `BitVec CTX_W`. `State` alone is that of the default parameters and of `Config.Ctx`. -/
structure State (P : Params := Config.params) (C : Type := Config.Ctx) where
  /-- BUF (R14) -/
  mem : Memory
  /-- CURSOR (R15) -/
  cursor : P.Cursor
  /-- IN_PACKET (R16) -/
  inPacket : Bool
  /-- PENDING_UNESCAPE (R17) -/
  pendingUnescape : Bool
  /-- HAS_SINK: a callback is registered (R18) -/
  hasSink : Bool
  /-- CTX: the context (R18) -/
  ctx : C
  /-- PHASE, level T (R25) -/
  phase : Phase
  /-- DISPATCH_PENDING, level P (R24) -/
  dispatchPending : Bool
  /-- the MODEL's own: what the environment does next, first first (log entry 3) -/
  inputs : List (Input P C)
  /-- the MODEL's own: the bytes accepted since the last reset (R123), observation only (log entry 4) -/
  accepted : List Byte
  /-- the MODEL's own: the dispatch events emitted since the last reset (R104), observation only (log entry 4) -/
  events : List (Dispatch P C)
  /-- the MODEL's own: the dispatches ended since the last reset (R136), observation only (log entry 4) -/
  completed : List (Dispatch P C)
  /-- the MODEL's own: which draw of the free values comes next (log entry 5) -/
  cycle : Nat
  deriving DecidableEq, Repr

/-- What an operation on a decoder answers. -/
abbrev Result (P : Params := Config.params) (C : Type := Config.Ctx) := Host.Outcome (State P C) Fault Refusal

/-- A decoder right after construction or reset (R29), with nothing yet offered to it; CREATE gives it `hasSink` and `ctx`. -/
def State.initial {P : Params} {C : Type} (hasSink : Bool) (ctx : C) : State P C :=
  { mem := [], cursor := 0, inPacket := false, pendingUnescape := false, hasSink := hasSink, ctx := ctx,
    phase := .live, dispatchPending := false, inputs := [], accepted := [], events := [], completed := [], cycle := 0 }

/-- The machine of the default parameters right after construction or reset (R29). -/
def State.reset : State := State.initial Config.hasSink Config.ctx

end Sys2Proof.Machine
end

