-- ==== Sys2Proof/Syntax.lean ====
section
/-! DEFINITION. The instructions of the block: one input byte is one instruction, of one of four classes (R50, R52). -/

namespace Sys2Proof

/-- The four classes of an input byte (R52). -/
inductive ByteClass where
  | startMarker
  | endMarker
  | escMarker
  | data
  deriving DecidableEq, Repr

/-- An instruction: a marker, which has no operand, or a DATA byte, whose operand is the whole byte (R51). -/
inductive Instr where
  /-- START (R67) -/
  | startMarker
  /-- END (R73) -/
  | endMarker
  /-- ESC (R82) -/
  | escMarker
  /-- DATA (R89) -/
  | data (b : Byte)
  deriving DecidableEq, Repr

/-- The class an instruction belongs to. -/
def Instr.byteClass : Instr → ByteClass
  | .startMarker => .startMarker
  | .endMarker => .endMarker
  | .escMarker => .escMarker
  | .data _ => .data

/-- A row of the opcode table: a byte belongs to it when its bits under `mask` are `pattern` (R61). -/
structure OpcodeRow where
  pattern : Byte
  mask : Byte
  cls : ByteClass
  deriving DecidableEq, Repr

/-- Why a byte sequence gives no instruction. There is no illegal byte (R55), so only an empty stream is rejected. -/
inductive DecodeError where
  /-- The stream has no further byte (R106). -/
  | endOfStream
  deriving DecidableEq, Repr

end Sys2Proof
end

