-- ==== Sys2Proof/Machine/Flags.lean ====
section
/-! DEFINITION. The tests on the state and the two flags: the capacity test, the dispatch condition, and the control
states with the transition table of R113. -/

namespace Sys2Proof.Machine

variable {P : Params} {C : Type}

/-- The capacity test CURSOR < MAX_PACKET_LEN (R92, R97). -/
def State.hasRoom (s : State P C) : Bool := decide (s.cursor.toNat < P.maxPacketLen)

/-- The dispatch condition: a packet is open, it is not empty, a callback is registered (R74). -/
def State.mayDispatch (s : State P C) : Bool := s.inPacket && decide (0 < s.cursor.toNat) && s.hasSink

/-- The four control states: idle or in a packet, unescaped or pending (R23). -/
inductive Control where
  /-- I/U -/
  | idleUnescaped
  /-- I/P -/
  | idlePending
  /-- P/U -/
  | packetUnescaped
  /-- P/P -/
  | packetPending
  deriving DecidableEq, Repr

/-- The control state of two flags (R23). -/
def controlOf (inPacket pendingUnescape : Bool) : Control :=
  match inPacket, pendingUnescape with
  | false, false => .idleUnescaped
  | false, true => .idlePending
  | true, false => .packetUnescaped
  | true, true => .packetPending

/-- The control state of the machine. -/
def State.control (s : State P C) : Control := controlOf s.inPacket s.pendingUnescape

/-- The transition table of R113: the control state after a byte of a class; `room` says that CURSOR < MAX_PACKET_LEN. -/
def nextControl (room : Bool) : Control → ByteClass → Control
  | .idleUnescaped, .startMarker => .packetUnescaped
  | .idleUnescaped, .endMarker => .idleUnescaped
  | .idleUnescaped, .escMarker => .idlePending
  | .idleUnescaped, .data => .idleUnescaped
  | .idlePending, .startMarker => .packetPending
  | .idlePending, .endMarker => .idlePending
  | .idlePending, .escMarker => .idlePending
  | .idlePending, .data => .idlePending
  | .packetUnescaped, .startMarker => .packetUnescaped
  | .packetUnescaped, .endMarker => .idleUnescaped
  | .packetUnescaped, .escMarker => .packetPending
  | .packetUnescaped, .data => if room then .packetUnescaped else .idleUnescaped
  | .packetPending, .startMarker => .packetPending
  | .packetPending, .endMarker => .idlePending
  | .packetPending, .escMarker => .packetPending
  | .packetPending, .data => if room then .packetUnescaped else .idleUnescaped

end Sys2Proof.Machine
end

