-- ==== Sys2Proof/Machine/Operands.lean ====
section
/-! DEFINITION. The operands: the value a DATA byte stores (R57) and the cell it is stored in (R92). -/

namespace Sys2Proof.Machine

variable {P : Params} {C : Type}

/-- The unescape transform: the mask bits are cleared, never set (R57). -/
def unescape (p : Params) (b : Byte) : Byte := b &&& ~~~ p.escMask

/-- The operand of a DATA byte, from the byte and PENDING_UNESCAPE (R57, R91). -/
def dataOperand (p : Params) (pending : Bool) (b : Byte) : Byte :=
  if pending then unescape p b else b

/-- The cell the next stored byte goes to: the one addressing mode, the cursor (R15, R92). -/
def State.storeIndex (s : State P C) : Nat := s.cursor.toNat

end Sys2Proof.Machine
end

