-- ==== Sys2Proof/Machine/Ops.lean ====
section
/-! DEFINITION. The named operations over the buffer and the registers that the byte classes, the host operations and the
ports share. The block takes no exception (R138); what stands in their place is the dispatch, entered by END (R145) and
left when the sink ends it (R147). -/

namespace Sys2Proof.Machine

variable {P : Params} {C : Type}

/-- What a cell holds; a cell that is not listed holds 0x00 (R29). -/
def Memory.cellAt : Memory → Nat → Byte
  | [], _ => 0
  | (k, v) :: m, a => if k = a then v else Memory.cellAt m a

/-- The list with cell `a` holding `v`, in canonical form: rising indices, no entry that holds 0x00. -/
def Memory.update : Memory → Nat → Byte → Memory
  | [], a, v => if v = 0 then [] else [(a, v)]
  | (k, w) :: m, a, v =>
    if k < a then (k, w) :: Memory.update m a v
    else if k = a then (if v = 0 then m else (a, v) :: m)
    else (if v = 0 then (k, w) :: m else (a, v) :: (k, w) :: m)

/-- The canonical form of a buffer of `cap` cells: strictly rising indices, every one a cell of BUF, no entry that holds 0x00. -/
abbrev Memory.wf (cap : Nat) (m : Memory) : Prop :=
  m.Pairwise (fun x y => x.1 < y.1) ∧ ∀ c ∈ m, c.1 < cap ∧ c.2 ≠ 0

/-- MemRead(a, 1) of a buffer of `cap` cells: a cell that does not exist faults (R11, R32). -/
def Memory.read (cap : Nat) (m : Memory) (a : Nat) : Except Fault Byte :=
  if a < cap then .ok (m.cellAt a) else .error (.bufferIndex a)

/-- MemWrite(a, 1, v) on a buffer of `cap` cells: a cell that does not exist faults (R11, R32). -/
def Memory.write (cap : Nat) (m : Memory) (a : Nat) (v : Byte) : Except Fault Memory :=
  if a < cap then .ok (m.update a v) else .error (.bufferIndex a)

/-- The clear: 0x00 to cells 0 .. n-1, in that order (R38, R39, R67). -/
def Memory.clearBelow (cap : Nat) (m : Memory) : Nat → Except Fault Memory
  | 0 => .ok m
  | n + 1 =>
    match m.clearBelow cap n with
    | .ok m' => m'.write cap n 0
    | .error f => .error f

/-- MemRead(0, n): cells 0 .. n-1, the lowest index first (R11, R40). -/
def Memory.readBelow (cap : Nat) (m : Memory) : Nat → Except Fault (List Byte)
  | 0 => .ok []
  | n + 1 =>
    match m.readBelow cap n with
    | .ok bs =>
      match m.read cap n with
      | .ok b => .ok (bs ++ [b])
      | .error f => .error f
    | .error f => .error f

/-- MemRead(a, 1) of BUF (R11). -/
def State.readCell (s : State P C) (a : Nat) : Except Fault Byte := s.mem.read P.maxPacketLen a

/-- BUF with new contents. -/
def State.setMem (m : Memory) (s : State P C) : State P C := { s with mem := m }

/-- CURSOR <- c -/
def State.setCursor (c : P.Cursor) (s : State P C) : State P C := { s with cursor := c }

/-- IN_PACKET <- v -/
def State.setInPacket (v : Bool) (s : State P C) : State P C := { s with inPacket := v }

/-- PENDING_UNESCAPE <- v -/
def State.setPendingUnescape (v : Bool) (s : State P C) : State P C := { s with pendingUnescape := v }

/-- PHASE <- p -/
def State.setPhase (p : Phase) (s : State P C) : State P C := { s with phase := p }

/-- DISPATCH_PENDING <- v -/
def State.setDispatchPending (v : Bool) (s : State P C) : State P C := { s with dispatchPending := v }

/-- What the environment does next. -/
def State.setInputs (xs : List (Input P C)) (s : State P C) : State P C := { s with inputs := xs }

/-- Note that a byte was accepted (R123). -/
def State.accept (b : Byte) (s : State P C) : State P C := { s with accepted := s.accepted ++ [b] }

/-- emit Dispatch(ctx, len, data): append the event to the output trace (R11, R104). -/
def State.emit (d : Dispatch P C) (s : State P C) : State P C := { s with events := s.events ++ [d] }

/-- Note that the sink has ended dispatches (R136). -/
def State.complete (ds : List (Dispatch P C)) (s : State P C) : State P C := { s with completed := s.completed ++ ds }

/-- One clock cycle is over: the free values are drawn anew (U5). -/
def State.tick (s : State P C) : State P C := { s with cycle := s.cycle + 1 }

/-- The init write and the reset values: construction at level T, reset at level P (R29, R100, R121). A new observation
begins. -/
def State.construct (hasSink : Bool) (ctx : C) (s : State P C) : State P C :=
  { s with
    mem := [], cursor := 0, inPacket := false, pendingUnescape := false, hasSink := hasSink, ctx := ctx, phase := .live,
    dispatchPending := false, accepted := [], events := [], completed := [] }

/-- Go on from a next state; a fault or a refusal stays. -/
def andThen (o : Result P C) (k : State P C → Result P C) :
    Result P C :=
  match o with
  | .next s => k s
  | .fault f => .fault f
  | .refused r => .refused r

/-- Go on from a value; a fault of the access stops the machine. -/
def orFault {α : Type} (e : Except Fault α) (k : α → Result P C) :
    Result P C :=
  match e with
  | .ok a => k a
  | .error f => .fault f

/-- The operation in phase Live; outside it the spec gives it no meaning (R25, R111, D24). -/
def inLive (s : State P C) (o : Result P C) : Result P C :=
  match s.phase with
  | .unconstructed => .refused .beforeCreate
  | .live => o
  | .destroyed => .refused .afterDestroy

/-- The clear write: cells 0 .. CURSOR-1 (R38). -/
def State.clearBuffer (s : State P C) : Result P C :=
  orFault (s.mem.clearBelow P.maxPacketLen s.cursor.toNat) fun m => .next (s.setMem m)

/-- The store write: `v` to cell CURSOR, then CURSOR + 1 (R38, R92). -/
def State.storeByte (v : Byte) (s : State P C) : Result P C :=
  orFault (s.mem.write P.maxPacketLen s.storeIndex v) fun m => .next ((s.setMem m).setCursor (s.cursor + 1))

/-- Entering a dispatch: the sink is given CTX, CURSOR and BUF[0 .. CURSOR-1]; nothing is saved anywhere (R75, R145). -/
def State.enterDispatch (s : State P C) : Result P C :=
  orFault (s.mem.readBelow P.maxPacketLen s.cursor.toNat) fun data =>
    .next (s.emit { ctx := s.ctx, len := s.cursor, data := data })

/-- Leaving a dispatch at level P: DISPATCH_PENDING <- 0, nothing is restored (R132, R147). `d` is what the sink read. -/
def State.leaveDispatch (d : Dispatch P C) (s : State P C) : State P C := (s.setDispatchPending false).complete [d]

end Sys2Proof.Machine
end

