-- ==== Sys2Proof/Machine/Data.lean ====
section
/-! DEFINITION. The meaning of the DATA class (R89): the gate, the unescape, the capacity test, in that order (R93). -/

namespace Sys2Proof.Machine

variable {P : Params} {C : Type}

/-- DATA: dropped while idle (R90); in a packet the pending escape is used up (R91), then the byte is stored (R92) or the
packet is aborted (R95, R96). -/
def execData (b : Byte) (s : State P C) : Result P C :=
  inLive s <|
    if s.inPacket then
      if s.hasRoom then (s.setPendingUnescape false).storeByte (dataOperand P s.pendingUnescape b)
      else .next ((s.setPendingUnescape false).setInPacket false)
    else .next s

end Sys2Proof.Machine
end

