-- ==== Sys2Proof/Machine/Marker.lean ====
section
/-! DEFINITION. The meanings of the three marker classes: START (R67), END (R73), ESC (R82). -/

namespace Sys2Proof.Machine

variable {P : Params} {C : Type}

/-- START: clear the bytes assembled so far, CURSOR <- 0, IN_PACKET <- 1; PENDING_UNESCAPE is kept (R67, R68). -/
def execStart (s : State P C) : Result P C :=
  inLive s <| andThen s.clearBuffer fun t => .next ((t.setCursor 0).setInPacket true)

/-- END: dispatch if the condition holds; in every case IN_PACKET <- 0 and nothing else (R73, R76). -/
def execEnd (s : State P C) : Result P C :=
  inLive s <| andThen (if s.mayDispatch then s.enterDispatch else .next s) fun t => .next (t.setInPacket false)

/-- ESC: PENDING_UNESCAPE <- 1, in every control state; nothing else (R82, R83, R84). -/
def execEsc (s : State P C) : Result P C :=
  inLive s <| .next (s.setPendingUnescape true)

end Sys2Proof.Machine
end

