-- ==== Sys2Proof/Machine/Dispatch.lean ====
section
/-! DEFINITION. The step function of R103: one arm per instruction. -/

namespace Sys2Proof.Machine

def exec (i : Instr) (s : State) : Host.Outcome State Fault Refusal :=
  match i with
  | .startMarker => Sys2Proof.Machine.execStart s
  | .endMarker => Sys2Proof.Machine.execEnd s
  | .escMarker => Sys2Proof.Machine.execEsc s
  | .data b => Sys2Proof.Machine.execData b s

end Sys2Proof.Machine
end

