-- ==== Sys2Proof/WellFormed.lean ====
section
/-! DEFINITION. Which terms of Instr stand for an input byte: the value of a DATA byte is no marker value (R65, R89). -/

namespace Sys2Proof

/-- A DATA byte is none of START_BYTE, END_BYTE, ESC_BYTE; a marker needs no check. -/
def Instr.wellFormed (p : Params) : Instr → Bool
  | .startMarker => true
  | .endMarker => true
  | .escMarker => true
  | .data b => b != p.startByte && b != p.endByte && b != p.escByte

end Sys2Proof
end

