-- ==== Sys2Proof/Decode.lean ====
section
/-! DEFINITION. From bytes to instructions and back: classification by value (R52), the decoder, the encoder, the
opcode table (R54, R61) and the two pseudo-instructions (R66). -/

namespace Sys2Proof

/-- The class of a byte, a function of its value alone: no state is looked at (R52, R53). -/
def classify (p : Params) (b : Byte) : ByteClass :=
  if b = p.startByte then .startMarker
  else if b = p.endByte then .endMarker
  else if b = p.escByte then .escMarker
  else .data

/-- The instruction of one input byte: every byte value has one (R54, R55). -/
def decodeByte (p : Params) (b : Byte) : Instr :=
  match classify p b with
  | .startMarker => .startMarker
  | .endMarker => .endMarker
  | .escMarker => .escMarker
  | .data => .data b

/-- The first instruction of a byte stream, with the rest of the stream: always one byte (R50). -/
def decode (p : Params) : List Byte → Except DecodeError (Instr × List Byte)
  | [] => .error .endOfStream
  | b :: bs => .ok (decodeByte p b, bs)

/-- The instructions of a whole stream, in order (R27, R50). -/
def decodeAll (p : Params) (bs : List Byte) : List Instr := bs.map (decodeByte p)

/-- The byte of an instruction (R54). -/
def encodeByte (p : Params) : Instr → Byte
  | .startMarker => p.startByte
  | .endMarker => p.endByte
  | .escMarker => p.escByte
  | .data b => b

/-- The words of an instruction: one byte (R50). -/
def encode (p : Params) (i : Instr) : List Byte := [encodeByte p i]

/-- The stream of a list of instructions. -/
def encodeAll (p : Params) (is : List Instr) : List Byte := is.map (encodeByte p)

/-- The rows of opcode_table.json, in its order, for the default parameters (R61). -/
def opcodeTable : List OpcodeRow :=
  [ ⟨0x02, 0xFF, .startMarker⟩, ⟨0x03, 0xFF, .endMarker⟩, ⟨0x10, 0xFF, .escMarker⟩,
    ⟨0x80, 0x80, .data⟩, ⟨0x40, 0xC0, .data⟩, ⟨0x20, 0xE0, .data⟩, ⟨0x00, 0xFE, .data⟩, ⟨0x04, 0xFC, .data⟩,
    ⟨0x08, 0xF8, .data⟩, ⟨0x11, 0xFF, .data⟩, ⟨0x12, 0xFE, .data⟩, ⟨0x14, 0xFC, .data⟩, ⟨0x18, 0xF8, .data⟩ ]

/-- Does a row of the table cover a byte? -/
def OpcodeRow.covers (r : OpcodeRow) (b : Byte) : Bool := b &&& r.mask == r.pattern

/-- LIT 0xNN: a marker value sent as payload (R66, R63). -/
def lit (p : Params) (b : Byte) : List Instr := [.escMarker, .data (b ||| p.escMask)]

/-- One payload byte as PKT sends it: LIT if it is a marker value, else itself (R66). -/
def payloadByte (p : Params) (b : Byte) : List Instr :=
  if p.isMarker b then lit p b else [.data b]

/-- PKT(p_1, ..., p_n): the stream of a well-formed packet (R66). -/
def pkt (p : Params) (bytes : List Byte) : List Instr :=
  .startMarker :: (bytes.flatMap (payloadByte p) ++ [.endMarker])

/-- The low `n` bytes of `w`, the least significant first. -/
def bytesOfWord : Nat → Nat → List Byte
  | 0, _ => []
  | n + 1, w => BitVec.ofNat 8 w :: bytesOfWord n (w / 256)

/-- The bytes of a table word of `nbits` bits, bits above `nbits` zero, at least the one byte an instruction has. -/
def tableWordBytes (nbits w : Nat) : List Byte :=
  bytesOfWord (max 1 ((nbits + 7) / 8)) (w % 2 ^ nbits)

/-- The instruction the decoder of the default parameters reads from the bits of a table row: none if the bits hold more than
one instruction. -/
def decodeTableWord (nbits w : Nat) : Option Instr :=
  match decode Config.params (tableWordBytes nbits w) with
  | .ok (i, []) => some i
  | .ok (_, _ :: _) => none
  | .error _ => none

end Sys2Proof
end

