-- ==== Sys2Proof/Machine/Policy.lean ====
section
/-! DEFINITION. The step function of R103 for every parameter set and every type of context: the per-byte policy. `exec` is
it at the default parameters. -/

namespace Sys2Proof.Machine

/-- The effect of an instruction (R103), whatever the elaboration. -/
def execFor {P : Params} {C : Type} (i : Instr) (s : State P C) : Result P C :=
  match i with
  | .startMarker => execStart s
  | .endMarker => execEnd s
  | .escMarker => execEsc s
  | .data b => execData b s

end Sys2Proof.Machine
end

