-- ==== Sys2Proof/Machine/HostOps.lean ====
section
/-! DEFINITION. The host operations of level T: CREATE (R100), FEED (R102), DESTROY (R110), with the lifecycle (R112), for
every parameter set and every type of context. -/

namespace Sys2Proof.Machine

variable {P : Params} {C : Type}

/-- The events a step from `s` to `t` emitted: what was appended to the trace (R11, R102). -/
def emitted (s t : State P C) : List (Dispatch P C) := t.events.drop s.events.length

/-- One byte of a FEED: the step of R103; a callback it makes runs and returns inside it (R108). -/
def feedByte (b : Byte) (s : State P C) : Result P C :=
  andThen (execFor (decodeByte P b) s) fun t => .next ((t.accept b).complete (emitted s t))

/-- The effect of FEED on a chunk: the left fold of the step (R102). -/
def feedBytes : List Byte → State P C → Result P C
  | [], s => .next s
  | b :: bs, s => andThen (feedByte b s) (feedBytes bs)

/-- CREATE: from Unconstructed to Live (R100, R112). -/
def create (hasSink : Bool) (ctx : C) (s : State P C) : Result P C :=
  match s.phase with
  | .unconstructed => .next (s.construct hasSink ctx)
  | .live => .refused .createdTwice
  | .destroyed => .refused .createdTwice

/-- The next byte of a FEED, the rest of the chunk left for the next steps; an empty chunk does nothing (R102, R106). -/
def feed (chunk : List Byte) (s : State P C) : Result P C :=
  inLive s <|
    if s.dispatchPending then .refused .reentrantUse
    else match chunk with
      | [] => .next s
      | b :: bs => feedByte b (s.setInputs (.feed bs :: s.inputs))

/-- DESTROY: from Live to Destroyed, with no event (R110, R112). Clearing the references is the end of the instance and no
write (R18; log entry 7). -/
def destroy (s : State P C) : Result P C :=
  inLive s <|
    if s.dispatchPending then .refused .reentrantUse else .next (s.setPhase .destroyed)

end Sys2Proof.Machine
end

