-- ==== Sys2Proof/Machine/Ports.lean ====
section
/-! DEFINITION. The port-level interface, level P, for every parameter set and every width `W` = CTX_W of the context: the
outputs (R122, R126 to R131) and the next-state function of one rising clock edge (R135). -/

namespace Sys2Proof.Machine

variable {P : Params} {W : Nat}

/-- The output pins in one cycle (R119). -/
structure Outputs (P : Params := Config.params) (W : Nat := Config.ctxW) where
  inReady : Bool
  pktValid : Bool
  pktLen : P.Cursor
  pktCtx : BitVec W
  pktRdata : Byte
  deriving DecidableEq, Repr

/-- `pkt_rdata` during a dispatch: the cell at the index, 0x00 for an index out of range (R129, R130). -/
def State.readPort (s : State P (BitVec W)) (raddr : Nat) : Byte :=
  if raddr < P.maxPacketLen then s.mem.cellAt raddr else 0

/-- The outputs, from the state before the edge and the read index (R120). Outside a dispatch `pkt_len`, `pkt_ctx` and
`pkt_rdata` are free values (R131); outside the phase Live all outputs are (R157). -/
def outputs (s : State P (BitVec W)) (raddr : P.Raddr) : Outputs P W :=
  match s.phase, s.dispatchPending with
  | .live, true =>
    { inReady := false, pktValid := true, pktLen := s.cursor, pktCtx := s.ctx, pktRdata := s.readPort raddr.toNat }
  | .live, false =>
    { inReady := true, pktValid := false, pktLen := Config.freeLen P.cursorW s.cycle, pktCtx := Config.freeCtx W s.cycle,
      pktRdata := Config.freeRdata P.raddrW s.cycle raddr }
  | .unconstructed, _ | .destroyed, _ =>
    { inReady := Config.freeInReady s.cycle, pktValid := Config.freePktValid s.cycle,
      pktLen := Config.freeLen P.cursorW s.cycle, pktCtx := Config.freeCtx W s.cycle,
      pktRdata := Config.freeRdata P.raddrW s.cycle raddr }

/-- The outputs in the cycle that an edge with these pins ends: they depend on the read index and on no other pin (R120). -/
def cycleOutputs (p : Pins P) (s : State P (BitVec W)) : Outputs P W := outputs s p.pktRaddr

/-- What a sink reads of a dispatch at the ports: `pkt_ctx`, `pkt_len`, and `pkt_rdata` at the indices 0 .. pkt_len-1
(R136). -/
def portDispatch (s : State P (BitVec W)) : Dispatch P (BitVec W) :=
  let n := (outputs s 0).pktLen
  { ctx := (outputs s 0).pktCtx, len := n,
    data := (List.range n.toNat).map fun k => (outputs s (BitVec.ofNat P.raddrW k)).pktRdata }

/-- An input transfer: the step of R103; DISPATCH_PENDING <- 1 if it emitted an event (R124, R125). -/
def transfer (b : Byte) (s : State P (BitVec W)) : Result P (BitVec W) :=
  andThen (execFor (decodeByte P b) s) fun t => .next ((t.accept b).setDispatchPending (!(emitted s t).isEmpty))

/-- One rising edge out of reset: a pending dispatch comes before input (R135). -/
def liveEdge (p : Pins P) (s : State P (BitVec W)) : Result P (BitVec W) :=
  if s.dispatchPending then
    if p.pktReady then .next (s.leaveDispatch (portDispatch s)) else .next s
  else if p.inValid then transfer p.inData s
  else .next s

/-- One rising edge (R135): reset first, whatever the other inputs are (R121). Before the first reset and after DESTROY an
offered byte has no meaning (R157, R111), and an edge that offers none leaves everything as it is. -/
def edge (p : Pins P) (s : State P (BitVec W)) : Result P (BitVec W) :=
  if p.rst then .next (s.construct s.hasSink s.ctx)
  else match s.phase with
    | .live => liveEdge p s
    | .unconstructed => if p.inValid then .refused .beforeCreate else .next s
    | .destroyed => if p.inValid then .refused .afterDestroy else .next s

/-- What the block does when its environment does one thing; `s` no longer lists it among its inputs. -/
def takeInput (x : Input P (BitVec W)) (s : State P (BitVec W)) : Result P (BitVec W) :=
  match x with
  | .create hasSink ctx => create hasSink ctx s
  | .feed chunk => feed chunk s
  | .destroy => destroy s
  | .edge pins => andThen (edge pins s) fun t => .next t.tick

/-- One step of the machine, whatever the elaboration: the environment's next input is taken; with none the block holds its
state (R154). -/
def stepFor (s : State P (BitVec W)) : Result P (BitVec W) :=
  match s.inputs with
  | [] => .next s
  | x :: rest => takeInput x (s.setInputs rest)

end Sys2Proof.Machine
end

