-- ==== Sys2Proof/Machine/Step.lean ====
section
/-! DEFINITION. One step of the machine of the default parameters. -/

namespace Sys2Proof.Machine

/-- One step: the environment's next input is taken; with none the block holds its state (R154). -/
def step (s : State) : Host.Outcome State Fault Refusal := stepFor s

/-- The state in which the upstream feeds the bytes of a table word next (log entry 3). -/
def State.withFetchWord (s : State) (nbits w : Nat) : State :=
  s.setInputs (.feed (Sys2Proof.tableWordBytes nbits w) :: s.inputs)

end Sys2Proof.Machine
end

