-- ==== Sys2Proof/Machine/Anomaly.lean ====
section
/-! DEFINITION. The nine silent anomalies of R139: the spec's names for inputs a well-formed stream would not contain. The
hardware records none of them (R140); the names serve statements and tests. -/

namespace Sys2Proof.Machine

/-- The labels AN1 to AN9 (R139). -/
inductive Anomaly where
  | an1 | an2 | an3 | an4 | an5 | an6 | an7 | an8 | an9
  deriving DecidableEq, Repr

/-- The label, if the condition holds. -/
def flagIf (c : Bool) (a : Anomaly) : List Anomaly := if c then [a] else []

/-- Is `b` of the form `M OR ESC_MASK` for a marker `M` (R139, AN9)? -/
def isEscapedMarker (p : Params) (b : Byte) : Bool := p.markers.any fun m => b == (m ||| p.escMask)

/-- The anomalies of an instruction in the state at the start of its step (R139). -/
def anomalies {P : Params} {C : Type} (i : Instr) (s : State P C) : List Anomaly :=
  match i with
  | .startMarker => flagIf s.inPacket .an1 ++ flagIf s.pendingUnescape .an7
  | .endMarker =>
    flagIf (s.inPacket && decide (s.cursor.toNat = 0)) .an2 ++ flagIf (!s.inPacket) .an3 ++
      flagIf (s.inPacket && decide (0 < s.cursor.toNat) && !s.hasSink) .an6 ++ flagIf s.pendingUnescape .an7
  | .escMarker => flagIf s.pendingUnescape .an7 ++ flagIf (!s.inPacket) .an8
  | .data b =>
    flagIf (!s.inPacket) .an4 ++ flagIf (s.inPacket && decide (s.cursor.toNat = P.maxPacketLen)) .an5 ++
      flagIf (s.inPacket && s.pendingUnescape && decide (s.cursor.toNat < P.maxPacketLen) &&
        !isEscapedMarker P b) .an9

end Sys2Proof.Machine
end

