-- ==== Sys2Proof/Machine/Instances.lean ====
section
/-! DEFINITION. Elaboration: the machine of a parameter set, refused if the set breaks R8. And several decoders of one
elaboration side by side, one state each; they share nothing (R117, R153). A handle is a position in the list (R100). -/

namespace Sys2Proof.Machine

variable {P : Params} {W : Nat}

/-- The machine of the parameter set `P` and the constants HAS_SINK and CTX, of `W` = CTX_W bits (R6, R7, R119). -/
def machineFor (P : Params) (W : Nat) (hasSink : Bool) (ctx : BitVec W) : Host.Core :=
  { State := State P (BitVec W), Fault := Fault, Refusal := Refusal, step := stepFor, reset := State.initial hasSink ctx }

/-- Elaboration: a legal parameter set gives its machine, another is refused with the constraint it breaks (R6, R8). -/
def elaborate (P : Params) (W : Nat) (hasSink : Bool) (ctx : BitVec W) : Except ParamError Host.Core :=
  match P.check with
  | none => .ok (machineFor P W hasSink ctx)
  | some e => .error e

/-- A new CREATE makes a new decoder with the reset state, whatever the others are (R112). -/
def createDecoder (hasSink : Bool) (ctx : BitVec W) (ds : List (State P (BitVec W))) : List (State P (BitVec W)) :=
  ds ++ [State.initial hasSink ctx]

/-- One step of the decoder with handle `h`; a handle nothing was created for has no meaning. -/
def stepDecoder (h : Nat) (ds : List (State P (BitVec W))) : Host.Outcome (List (State P (BitVec W))) Fault Refusal :=
  match ds[h]? with
  | none => .refused .beforeCreate
  | some s =>
    match stepFor s with
    | .next t => .next (ds.set h t)
    | .fault f => .fault f
    | .refused r => .refused r

end Sys2Proof.Machine
end

