-- ==== Sys2Proof/Safety.lean ====
section
/-! DEFINITION. What the statements speak of: the invariant of a run, the refinement of level T by level P, the states no
observer can tell apart, and the streams of the spec's examples. -/

namespace Sys2Proof.Machine

variable {P : Params} {C : Type} {W : Nat}

/-- BUF is in its canonical form. -/
abbrev BufWf (s : State P C) : Prop := s.mem.wf P.maxPacketLen

/-- The invariant of every run: the buffer is in canonical form, and in phase Live CURSOR is at most MAX_PACKET_LEN (R19),
every cell at or beyond CURSOR holds 0x00 (R20), and a pending dispatch is one of a closed, nonempty packet with a sink
(R125, R134). -/
abbrev Inv (s : State P C) : Prop :=
  BufWf s ∧
  (s.phase = .live →
    s.cursor.toNat ≤ P.maxPacketLen ∧
    (∀ c ∈ s.mem, c.1 < s.cursor.toNat) ∧
    (s.dispatchPending = true → s.inPacket = false ∧ 0 < s.cursor.toNat ∧ s.hasSink = true))

/-- The dispatch the sink still has, if any. -/
def pendingDispatches (s : State P (BitVec W)) : List (Dispatch P (BitVec W)) :=
  if s.dispatchPending then [portDispatch s] else []

/-- Level P refines level T (R136): in phase Live the block is in the state in which `run` of the bytes accepted since the
last reset leaves it, it has emitted the events of that run, and the dispatches ended so far are all of these events but
the one still pending. -/
def Refines (s : State P (BitVec W)) : Prop :=
  s.phase = .live →
    (∃ t, feedBytes s.accepted (State.initial s.hasSink s.ctx) = .next t ∧
      t.mem = s.mem ∧ t.cursor = s.cursor ∧ t.inPacket = s.inPacket ∧ t.pendingUnescape = s.pendingUnescape ∧
      t.events = s.events) ∧
    s.events = s.completed ++ pendingDispatches s

/-- Two states that produce the same events for every input (R31): the same constants and flags, and inside a packet the
same cursor and the same cells below it. -/
def SameView (s t : State P C) : Prop :=
  s.hasSink = t.hasSink ∧ s.ctx = t.ctx ∧ s.inPacket = t.inPacket ∧ s.pendingUnescape = t.pendingUnescape ∧
  (s.inPacket = true → s.cursor = t.cursor ∧ ∀ a, a < s.cursor.toNat → s.mem.cellAt a = t.mem.cellAt a)

/-- A stream fed to a decoder of the default parameters straight after reset dispatches exactly these packets, in this order,
and leaves these values of IN_PACKET, PENDING_UNESCAPE and CURSOR (the end state of 95_test_vectors). -/
def StreamGives (stream : List Byte) (packets : List (List Byte)) (inPacket pendingUnescape : Bool) (cursor : Nat) :
    Prop :=
  ∃ t, feedBytes stream State.reset = .next t ∧
    t.events = packets.map (fun p => { ctx := Config.ctx, len := BitVec.ofNat _ p.length, data := p }) ∧
    t.inPacket = inPacket ∧ t.pendingUnescape = pendingUnescape ∧ t.cursor = BitVec.ofNat _ cursor

/-- The events of a run end in at most one per START byte, one of them still to come while a packet is open (R115). -/
def EventsBounded (s : State P C) : Prop :=
  s.phase = .live →
    s.events.length + (if s.inPacket then 1 else 0) ≤ s.accepted.count P.startByte ∧
    s.events.length ≤ s.accepted.count P.endByte ∧
    ∀ d ∈ s.events, 1 ≤ d.len.toNat ∧ d.len.toNat ≤ P.maxPacketLen ∧ d.data.length = d.len.toNat ∧ d.ctx = s.ctx

/-- The state a step ended in, if it ended in one. -/
def nextState : Result P C → Option (State P C)
  | .next s => some s
  | .fault _ => none
  | .refused _ => none

end Sys2Proof.Machine
end

