-- ==== Sys2Proof/Certificates/Slice0/Obligations.lean ====
section
/-! DEFINITION. The statements for the provers, each a rule of spec/ (or what several rules say together) about the
machine. A stopped step is written out where it is meant; every other statement's conclusion is a next state. -/

open Sys2Proof Sys2Proof.Machine

/-! ## Parameters and encoding -/

/-- R8: which parameter sets are refused at elaboration, and that the default set passes; a legal one gives its machine, and
the default one the machine `core`. -/
def Obligations.ParameterSetsAreChecked : Prop :=
  (∀ p : Params, p.legal = true ↔
    (p.startByte ≠ p.endByte ∧ p.startByte ≠ p.escByte ∧ p.endByte ≠ p.escByte) ∧
    1 ≤ p.maxPacketLen ∧
    (∀ m, m = p.startByte ∨ m = p.endByte ∨ m = p.escByte →
      m &&& p.escMask = 0 ∧ (m ||| p.escMask) &&& ~~~ p.escMask = m) ∧
    (∀ m, m = p.startByte ∨ m = p.endByte ∨ m = p.escByte →
      m ||| p.escMask ≠ p.startByte ∧ m ||| p.escMask ≠ p.endByte ∧ m ||| p.escMask ≠ p.escByte ∧
      classify p (m ||| p.escMask) = .data)) ∧
  (∀ (P : Params) (W : Nat) (hasSink : Bool) (ctx : BitVec W),
    (P.legal = true → elaborate P W hasSink ctx = .ok (machineFor P W hasSink ctx)) ∧
    (P.legal = false → ∃ e, elaborate P W hasSink ctx = .error e)) ∧
  elaborate Config.params Config.ctxW Config.hasSink Config.ctx = .ok core ∧
  Config.params.legal = true ∧
  Config.params.markers = [0x02, 0x03, 0x10] ∧
  (∀ m ∈ Config.params.markers, m.getLsbD 5 = false) ∧
  Config.params.markers.map (fun m => m ||| Config.params.escMask) = [0x22, 0x23, 0x30]

/-- R7, R119: the width CURSOR_W of the type of CURSOR and of `pkt_len`, and the width RADDR_W of the type of `pkt_raddr`, for
every parameter set: every length up to MAX_PACKET_LEN is the value of a CURSOR, every index of a cell that of a read index,
and the widths that do this are those from CURSOR_W, from RADDR_W on. For the default set they are 10 and 9 bits. -/
def Obligations.WidthsAreLeast : Prop :=
  (∀ P : Params,
    (∀ n, n ≤ P.maxPacketLen → ∃ c : P.Cursor, c.toNat = n) ∧
    (∀ w, (∀ n, n ≤ P.maxPacketLen → ∃ c : BitVec w, c.toNat = n) ↔ P.cursorW ≤ w) ∧
    (∀ n, n < P.maxPacketLen → ∃ a : P.Raddr, a.toNat = n) ∧
    (∀ w, (∀ n, n < P.maxPacketLen → ∃ a : BitVec w, a.toNat = n) ↔ P.raddrW ≤ w)) ∧
  (∀ s : State, s.cursor.toNat < 1024) ∧ Config.params.cursorW = 10 ∧ Config.params.raddrW = 9

/-- R52: for every legal parameter set the class of a byte is a function of its value alone, and the order of the tests
does not matter. -/
def Obligations.ClassificationByValue : Prop :=
  ∀ p : Params, p.legal = true → ∀ b : Byte,
    (classify p b = .startMarker ↔ b = p.startByte) ∧
    (classify p b = .endMarker ↔ b = p.endByte) ∧
    (classify p b = .escMarker ↔ b = p.escByte) ∧
    (classify p b = .data ↔ b ≠ p.startByte ∧ b ≠ p.endByte ∧ b ≠ p.escByte)

/-- R54: words of the opcode map, the ends of every DATA range among them. -/
def Obligations.SpecWordsDecode : Prop :=
  let dec := decodeByte Config.params
  dec 0x02 = .startMarker ∧ dec 0x03 = .endMarker ∧ dec 0x10 = .escMarker ∧
  dec 0x00 = .data 0x00 ∧ dec 0x01 = .data 0x01 ∧ dec 0x04 = .data 0x04 ∧
  dec 0x0F = .data 0x0F ∧ dec 0x11 = .data 0x11 ∧ dec 0x20 = .data 0x20 ∧ dec 0xFF = .data 0xFF

/-- R61: for every byte exactly one row of the opcode table covers it, and the row's class is the byte's class. -/
def Obligations.OpcodeTableIsACover : Prop :=
  ∀ b : Byte, (opcodeTable.filter fun r => r.covers b).map OpcodeRow.cls = [classify Config.params b]

/-- Decode and encode agree on whole streams, for every legal parameter set: nothing of a well-formed stream is lost, every
byte stream is the stream of its own instructions, and these are well formed. -/
def Obligations.StreamRoundTrip : Prop :=
  ∀ p : Params, p.legal = true →
    (∀ is : List Instr, (∀ i ∈ is, i.wellFormed p = true) → decodeAll p (encodeAll p is) = is) ∧
    (∀ bs : List Byte, encodeAll p (decodeAll p bs) = bs ∧ ∀ i ∈ decodeAll p bs, i.wellFormed p = true)

/-- R63: for every legal parameter set, the escaped form of a marker is a DATA byte, and unescaping it gives the marker. -/
def Obligations.EscapedMarkersRoundTrip : Prop :=
  (∀ p : Params, p.legal = true → ∀ m ∈ p.markers,
    classify p (m ||| p.escMask) = .data ∧ unescape p (m ||| p.escMask) = m) ∧
  (∀ (mask x : Byte), (x ||| mask) &&& ~~~ mask = x ↔ x &&& mask = 0)

/-- R58: a byte with bit 5 clear is unchanged, a byte with bit 5 set loses it, and no other bit changes; the listed values. -/
def Obligations.UnescapeClearsBitFive : Prop :=
  (∀ b : Byte, ∀ k, (unescape Config.params b).getLsbD k = (b.getLsbD k && decide (k ≠ 5))) ∧
  [0x22, 0x23, 0x30, 0x20, 0x61, 0x41, 0xFF, 0x00].map (unescape Config.params) =
    [0x02, 0x03, 0x10, 0x00, 0x41, 0x41, 0xDF, 0x00]

/-! ## Reset and lifecycle -/

/-- R29: what construction (CREATE) and reset (an edge with `rst` = 1, whatever the other pins and the state are) leave,
and that State.reset is such a state. That a reset keeps HAS_SINK and CTX, and that it makes a new decoder of a destroyed one
too, is the model's reading of R119, R121 and R137 (log entry 7, DEDUCED). -/
def Obligations.ConstructionAndResetValues : Prop :=
  let Initial (t : State) : Prop :=
    (∀ a, a < Config.maxPacketLen → t.readCell a = .ok 0) ∧ t.cursor = 0 ∧ t.inPacket = false ∧
    t.pendingUnescape = false ∧ t.control = .idleUnescaped ∧ t.dispatchPending = false ∧ t.phase = .live
  Initial State.reset ∧
  (∀ (s : State) (hasSink : Bool) (ctx : Config.Ctx) (rest : List Input),
    s.phase = .unconstructed → s.inputs = .create hasSink ctx :: rest →
    ∃ t, step s = .next t ∧ Initial t ∧ t.hasSink = hasSink ∧ t.ctx = ctx ∧ t.inputs = rest) ∧
  (∀ (s : State) (p : Pins) (rest : List Input),
    s.inputs = .edge p :: rest → p.rst = true →
    ∃ t, step s = .next t ∧ Initial t ∧ t.hasSink = s.hasSink ∧ t.ctx = s.ctx ∧ t.inputs = rest)

/-- R110: DESTROY of a live decoder, outside a dispatch, moves to Destroyed and emits nothing. That it writes PHASE and nothing
else is the model's reading (log entry 7, DEDUCED): R18 reads the source's clearing of the callback and context references as
the end of the instance. -/
def Obligations.DestroyEmitsNothing : Prop :=
  ∀ (s : State) (rest : List Input),
    s.phase = .live → s.dispatchPending = false → s.inputs = .destroy :: rest →
    step s = .next { s with phase := .destroyed, inputs := rest }

/-- R111, R157: FEED and DESTROY before CREATE and after DESTROY, and a byte offered at the ports then, are refused, and so
is every instruction. -/
def Obligations.UseOutsideLifeIsRefused : Prop :=
  ∀ (s : State) (rest : List Input),
    (s.phase = .unconstructed →
      (∀ i, exec i s = .refused .beforeCreate) ∧
      (∀ chunk, s.inputs = .feed chunk :: rest → step s = .refused .beforeCreate) ∧
      (s.inputs = .destroy :: rest → step s = .refused .beforeCreate) ∧
      (∀ p : Pins, s.inputs = .edge p :: rest → p.rst = false → p.inValid = true → step s = .refused .beforeCreate)) ∧
    (s.phase = .destroyed →
      (∀ i, exec i s = .refused .afterDestroy) ∧
      (∀ chunk, s.inputs = .feed chunk :: rest → step s = .refused .afterDestroy) ∧
      (s.inputs = .destroy :: rest → step s = .refused .afterDestroy) ∧
      (∀ p : Pins, s.inputs = .edge p :: rest → p.rst = false → p.inValid = true → step s = .refused .afterDestroy))

/-- R109, U3: FEED and DESTROY while DISPATCH_PENDING = 1, the model's form of a call from inside the callback (log entry 9),
are refused. -/
def Obligations.ReentrantUseIsRefused : Prop :=
  ∀ (s : State) (rest : List Input), s.phase = .live → s.dispatchPending = true →
    (∀ chunk, s.inputs = .feed chunk :: rest → step s = .refused .reentrantUse) ∧
    (s.inputs = .destroy :: rest → step s = .refused .reentrantUse)

/-- R112: the lifecycle. The phase changes from Unconstructed to Live by CREATE (at the ports, reset), from Live to
Destroyed by DESTROY, and in no other way, except that the ports' reset makes a new decoder of a destroyed one, which is the
model's reading of R137 (log entry 7). -/
def Obligations.LifecycleMoves : Prop :=
  ∀ s t : State, step s = .next t → t.phase ≠ s.phase →
    (t.phase = .live ∧ ∃ rest, (s.phase = .unconstructed ∧ ∃ h c, s.inputs = .create h c :: rest) ∨
      ∃ p, s.inputs = .edge p :: rest ∧ p.rst = true) ∨
    (s.phase = .live ∧ t.phase = .destroyed ∧ ∃ rest, s.inputs = .destroy :: rest)

/-! ## START -/

/-- R67: START completes; the bytes assembled so far are cleared, CURSOR is 0, a packet is open, the flag is kept. -/
def Obligations.StartOpensPacket : Prop :=
  ∀ s : State, s.phase = .live → BufWf s → s.cursor.toNat ≤ Config.maxPacketLen →
    ∃ t, exec .startMarker s = .next t ∧ t.cursor = 0 ∧ t.inPacket = true ∧ t.pendingUnescape = s.pendingUnescape ∧
      t.events = s.events ∧ (∀ a, t.mem.cellAt a = if a < s.cursor.toNat then 0 else s.mem.cellAt a) ∧ BufWf t

/-- R72: the state after START depends on PENDING_UNESCAPE alone, and so does every later dispatch. -/
def Obligations.StartForgetsHistory : Prop :=
  (∀ s : State, s.phase = .live → Inv s →
    ∃ t, exec .startMarker s = .next t ∧ t.inPacket = true ∧ t.cursor = 0 ∧ (∀ a, t.mem.cellAt a = 0) ∧
      t.pendingUnescape = s.pendingUnescape) ∧
  (∀ (s u : State) (bs : List Byte), s.phase = .live → u.phase = .live → Inv s → Inv u →
    s.hasSink = u.hasSink → s.ctx = u.ctx → s.pendingUnescape = u.pendingUnescape →
    ∃ s' u' es, feedBytes (Config.params.startByte :: bs) s = .next s' ∧
      feedBytes (Config.params.startByte :: bs) u = .next u' ∧
      s'.events = s.events ++ es ∧ u'.events = u.events ++ es)

/-- R71: two START bytes in a row leave the same state as one; `02 02 03` dispatches nothing. -/
def Obligations.StartIsIdempotent : Prop :=
  (∀ s : State, s.phase = .live → BufWf s → s.cursor.toNat ≤ Config.maxPacketLen →
    ∃ t, exec .startMarker s = .next t ∧ exec .startMarker t = .next t) ∧
  StreamGives [0x02, 0x02, 0x03] [] false false 0

/-- R69: START inside a packet discards the bytes assembled so far; the next dispatch shows only bytes after it. -/
def Obligations.SecondStartDiscards : Prop :=
  ∀ (s : State) (b : Byte), s.phase = .live → BufWf s → s.cursor.toNat ≤ Config.maxPacketLen → s.inPacket = true →
    s.pendingUnescape = false → s.hasSink = true → Config.params.isMarker b = false →
    ∃ t, feedBytes [Config.params.startByte, b, Config.params.endByte] s = .next t ∧
      t.events = s.events ++ [{ ctx := s.ctx, len := 1, data := [b] }]

/-! ## END -/

/-- R74: END completes; it dispatches exactly when a packet is open, not empty, and a callback is registered, and then shows
CTX, CURSOR and the cells below it (R75); otherwise its only effect is IN_PACKET <- 0. -/
def Obligations.EndDispatchesOnCondition : Prop :=
  ∀ s : State, s.phase = .live → s.cursor.toNat ≤ Config.maxPacketLen →
    (s.inPacket = true ∧ 0 < s.cursor.toNat ∧ s.hasSink = true →
      exec .endMarker s = .next { s with
        inPacket := false
        events := s.events ++
          [{ ctx := s.ctx, len := s.cursor, data := (List.range s.cursor.toNat).map s.mem.cellAt }] }) ∧
    (¬ (s.inPacket = true ∧ 0 < s.cursor.toNat ∧ s.hasSink = true) →
      exec .endMarker s = .next { s with inPacket := false })

/-- R76: END changes nothing but IN_PACKET, whether or not it dispatched; the two example streams. -/
def Obligations.EndKeepsPacketAndFlag : Prop :=
  (∀ s : State, s.phase = .live → s.cursor.toNat ≤ Config.maxPacketLen →
    ∃ t, exec .endMarker s = .next t ∧ t = { s with inPacket := false, events := t.events }) ∧
  (∃ t, feedBytes [0x02, 0x41, 0x42, 0x03] State.reset = .next t ∧ t.inPacket = false ∧ t.cursor = 2 ∧
    t.mem.cellAt 0 = 0x41 ∧ t.mem.cellAt 1 = 0x42) ∧
  StreamGives [0x02, 0x41, 0x10, 0x03] [[0x41]] false true 1

/-- R78: an empty packet is never dispatched, so no event has length 0; the two example streams. -/
def Obligations.EmptyPacketIsNotDispatched : Prop :=
  (∀ s : State, s.phase = .live → s.cursor = 0 → exec .endMarker s = .next { s with inPacket := false }) ∧
  (∀ (i : Instr) (s t : State), exec i s = .next t → ∀ d ∈ t.events, d ∈ s.events ∨ 0 < d.len.toNat) ∧
  StreamGives [0x02, 0x03] [] false false 0 ∧ StreamGives [0x02, 0x10, 0x03] [] false true 0

/-! ## ESC -/

/-- R82, R83, R84: ESC completes in every control state and writes PENDING_UNESCAPE and nothing else. -/
def Obligations.EscSetsOnlyItsFlag : Prop :=
  ∀ s : State, s.phase = .live → exec .escMarker s = .next { s with pendingUnescape := true }

/-- R85: two ESC bytes in a row act as one; `02 10 10 30 03` dispatches `[10]`. -/
def Obligations.EscIsIdempotent : Prop :=
  (∀ s : State, s.phase = .live → ∃ t, exec .escMarker s = .next t ∧ exec .escMarker t = .next t) ∧
  (∀ s : State, s.phase = .live → s.pendingUnescape = true → exec .escMarker s = .next s) ∧
  StreamGives [0x02, 0x10, 0x10, 0x30, 0x03] [[0x10]] false false 1

/-- R86: a marker after ESC is acted on in full and the flag stays 1; the example streams. -/
def Obligations.MarkersKeepPendingEscape : Prop :=
  (∀ s : State, s.phase = .live → BufWf s → s.cursor.toNat ≤ Config.maxPacketLen → s.pendingUnescape = true →
    (∃ t u, exec .startMarker s = .next t ∧ exec .startMarker { s with pendingUnescape := false } = .next u ∧
      t = { u with pendingUnescape := true }) ∧
    (∃ t u, exec .endMarker s = .next t ∧ exec .endMarker { s with pendingUnescape := false } = .next u ∧
      t = { u with pendingUnescape := true })) ∧
  StreamGives [0x02, 0x41, 0x10, 0x03] [[0x41]] false true 1 ∧
  StreamGives [0x02, 0x41, 0x10, 0x03, 0x02, 0x61, 0x03] [[0x41], [0x41]] false false 1 ∧
  StreamGives [0x02, 0x10, 0x03] [] false true 0

/-- R88: in phase Live a step takes PENDING_UNESCAPE from 1 to 0 exactly when it processes a DATA byte inside a packet or
resets the block. -/
def Obligations.PendingEscapeClearedInTwoWays : Prop :=
  ∀ s t : State, s.phase = .live → s.pendingUnescape = true → step s = .next t →
    (t.pendingUnescape = false ↔
      ∃ x rest, s.inputs = x :: rest ∧
        ((∃ b bs, x = .feed (b :: bs) ∧ classify Config.params b = .data ∧ s.inPacket = true) ∨
         (∃ p, x = .edge p ∧ (p.rst = true ∨
           (s.dispatchPending = false ∧ p.inValid = true ∧ classify Config.params p.inData = .data ∧
            s.inPacket = true)))))

/-! ## DATA -/

/-- R90: a DATA byte outside a packet changes no state at all; `10 41 02 61 03` dispatches `[41]`. -/
def Obligations.IdleDataIsDropped : Prop :=
  (∀ (s : State) (b : Byte), s.phase = .live → s.inPacket = false → exec (.data b) s = .next s) ∧
  StreamGives [0x10, 0x41, 0x02, 0x61, 0x03] [[0x41]] false false 1

/-- R91, R92: with room, a DATA byte is stored at CURSOR, its mask bits cleared if an escape was pending, CURSOR goes up by
one, the flag is used up, and nothing else changes; so at the default parameters, and for every other set and every type of
context. -/
def Obligations.DataIsStored : Prop :=
  let Stores {P : Params} {C : Type} (run : Instr → State P C → Result P C) : Prop :=
    ∀ (s : State P C) (b : Byte), s.phase = .live → BufWf s → s.inPacket = true →
      s.cursor.toNat < P.maxPacketLen →
      ∃ t, run (.data b) s = .next t ∧
        (∀ a, t.mem.cellAt a =
          if a = s.cursor.toNat then (if s.pendingUnescape then b &&& ~~~ P.escMask else b) else s.mem.cellAt a) ∧
        BufWf t ∧ t.cursor.toNat = s.cursor.toNat + 1 ∧ t.inPacket = true ∧ t.pendingUnescape = false ∧
        t = { s with mem := t.mem, cursor := t.cursor, pendingUnescape := false }
  Stores exec ∧ ∀ (P : Params) (C : Type), Stores (P := P) (C := C) execFor

/-- R95, R96: a DATA byte at a full buffer aborts the packet, drops the byte and uses the pending escape up; CURSOR, BUF and
the trace are kept. -/
def Obligations.OverflowAborts : Prop :=
  ∀ (s : State) (b : Byte), s.phase = .live → s.inPacket = true → Config.maxPacketLen ≤ s.cursor.toNat →
    exec (.data b) s = .next { s with inPacket := false, pendingUnescape := false }

/-- R95, R98: 513 bytes and then END dispatch nothing and leave CURSOR at 512; 512 bytes dispatch; after an abort everything
up to the next START is dropped. -/
def Obligations.ExactFillAndOverflowStreams : Prop :=
  ∀ v : Byte, Config.params.isMarker v = false →
    StreamGives ([0x02] ++ List.replicate 512 v ++ [0x03]) [List.replicate 512 v] false false 512 ∧
    StreamGives ([0x02] ++ List.replicate 513 v ++ [0x03]) [] false false 512 ∧
    StreamGives ([0x02] ++ List.replicate 512 v ++ [0x10, 0x61, 0x03]) [] false false 512 ∧
    StreamGives ([0x02] ++ List.replicate 513 v ++ [0x41, 0x42, 0x03, 0x02, 0x43, 0x03]) [[0x43]] false false 1

/-- R94: the DATA byte at CURSOR = MAX_PACKET_LEN - 1 is stored at the last cell, the packet stays open, and END then
dispatches MAX_PACKET_LEN bytes; so at the default parameters, and for every legal set and every type of context. -/
def Obligations.ExactFillStaysOpen : Prop :=
  let Fills {P : Params} {C : Type} (run : Instr → State P C → Result P C) : Prop :=
    ∀ (s : State P C) (b : Byte), s.phase = .live → BufWf s → s.inPacket = true → s.hasSink = true →
      s.cursor.toNat = P.maxPacketLen - 1 →
      ∃ t u, run (.data b) s = .next t ∧ t.inPacket = true ∧ t.cursor.toNat = P.maxPacketLen ∧
        t.mem.cellAt (P.maxPacketLen - 1) = dataOperand P s.pendingUnescape b ∧
        run .endMarker t = .next u ∧
        ∃ d, u.events = s.events ++ [d] ∧ d.len.toNat = P.maxPacketLen ∧ d.data.length = P.maxPacketLen
  Fills exec ∧ ∀ (P : Params) (C : Type), P.legal = true → Fills (P := P) (C := C) execFor

/-- R58, R83: a DATA byte stores a marker value only as the unescape of that marker's escaped form. -/
def Obligations.MarkerStoredOnlyByUnescape : Prop :=
  ∀ (pending : Bool) (b : Byte), (Instr.data b).wellFormed Config.params = true →
    Config.params.isMarker (dataOperand Config.params pending b) = true →
    pending = true ∧ b = (dataOperand Config.params pending b ||| Config.params.escMask)

/-- R98: outside a packet everything up to the next START is ignored but for the escape flag, and nothing is dispatched; for
every legal parameter set. -/
def Obligations.IdleIgnoresUntilStart : Prop :=
  ∀ (P : Params) (C : Type) (bs : List Byte) (s : State P C), P.legal = true →
    s.phase = .live → s.inPacket = false → P.startByte ∉ bs →
    ∃ t, feedBytes bs s = .next t ∧ t.mem = s.mem ∧ t.cursor = s.cursor ∧ t.inPacket = false ∧ t.events = s.events ∧
      t.pendingUnescape = (s.pendingUnescape || bs.contains P.escByte)

/-! ## All four classes -/

/-- The frame of START: BUF at and beyond CURSOR, and everything but BUF, CURSOR and IN_PACKET. -/
def Obligations.StartFrame : Prop :=
  ∀ s t : State, BufWf s → exec .startMarker s = .next t →
    (∀ a, s.cursor.toNat ≤ a → t.readCell a = s.readCell a) ∧
    t = { s with mem := t.mem, cursor := t.cursor, inPacket := t.inPacket }

/-- The frame of DATA: the one cell at CURSOR, and only in a packet with room; everything but BUF, CURSOR and the flags. -/
def Obligations.DataFrame : Prop :=
  ∀ (s t : State) (b : Byte), BufWf s → exec (.data b) s = .next t →
    (∀ a, ¬ (s.inPacket = true ∧ s.hasRoom = true ∧ a = s.storeIndex) → t.readCell a = s.readCell a) ∧
    t = { s with
          mem := t.mem, cursor := t.cursor, inPacket := t.inPacket, pendingUnescape := t.pendingUnescape }

/-- The frame of END and ESC: every cell, CURSOR, and all but IN_PACKET and the trace (END) or PENDING_UNESCAPE (ESC). -/
def Obligations.EndAndEscFrame : Prop :=
  (∀ s t : State, exec .endMarker s = .next t →
    (∀ a, t.readCell a = s.readCell a) ∧ t = { s with inPacket := t.inPacket, events := t.events }) ∧
  (∀ s t : State, exec .escMarker s = .next t →
    (∀ a, t.readCell a = s.readCell a) ∧ t = { s with pendingUnescape := t.pendingUnescape })

/-- R113: the framing machine's transition table, for every instruction in every state, at the default parameters and at any
other. -/
def Obligations.ControlTableHolds : Prop :=
  (∀ (i : Instr) (s t : State), exec i s = .next t → t.control = nextControl s.hasRoom s.control i.byteClass) ∧
  (∀ (P : Params) (C : Type) (i : Instr) (s t : State P C),
    execFor i s = .next t → t.control = nextControl s.hasRoom s.control i.byteClass)

/-- R16: a step of a live decoder opens a packet only by a START byte it accepts; and after an END byte none is open. -/
def Obligations.OnlyStartOpensPacket : Prop :=
  (∀ s t : State, s.phase = .live → s.inPacket = false → t.inPacket = true → step s = .next t →
    ∃ x rest, s.inputs = x :: rest ∧
      ((∃ bs, x = .feed (Config.params.startByte :: bs)) ∨
       (∃ p, x = .edge p ∧ p.rst = false ∧ p.inValid = true ∧ p.inData = Config.params.startByte))) ∧
  (∀ s t : State, exec .endMarker s = .next t → t.inPacket = false)

/-- R144: two anomalies coincide in one step only as AN7 with AN1, AN2, AN3, AN6 or AN8, and never three. -/
def Obligations.AnomaliesThatCoincide : Prop :=
  ∀ (i : Instr) (s : State),
    (anomalies i s).length ≤ 2 ∧
    ((anomalies i s).length = 2 →
      .an7 ∈ anomalies i s ∧ ∃ a ∈ anomalies i s, a ∈ [Anomaly.an1, .an2, .an3, .an6, .an8])

/-- R139: what the nine anomalies do to the flags and the trace, and which change nothing. AN3 and AN4 change nothing, AN2 and
AN6 only end the packet, AN5 also uses up the escape, AN8 only sets its flag, AN1 leaves an open, empty packet and emits
nothing, AN7 keeps the flag, and AN9 stores the byte without the mask bits and emits nothing. The rest of what START, a marker
with a pending escape and a stored byte do is stated by StartOpensPacket, MarkersKeepPendingEscape, EscSetsOnlyItsFlag and
DataIsStored. -/
def Obligations.AnomalyEffects : Prop :=
  ∀ (i : Instr) (s t : State), BufWf s → exec i s = .next t →
    (Anomaly.an1 ∈ anomalies i s → i = .startMarker ∧ t.inPacket = true ∧ t.cursor = 0 ∧ t.events = s.events) ∧
    (Anomaly.an2 ∈ anomalies i s → i = .endMarker ∧ t = { s with inPacket := false }) ∧
    (Anomaly.an3 ∈ anomalies i s → i = .endMarker ∧ t = s) ∧
    (Anomaly.an4 ∈ anomalies i s → i.byteClass = .data ∧ t = s) ∧
    (Anomaly.an5 ∈ anomalies i s →
      i.byteClass = .data ∧ t = { s with inPacket := false, pendingUnescape := false }) ∧
    (Anomaly.an6 ∈ anomalies i s → i = .endMarker ∧ t = { s with inPacket := false }) ∧
    (Anomaly.an7 ∈ anomalies i s → i.byteClass ≠ .data ∧ t.pendingUnescape = true) ∧
    (Anomaly.an8 ∈ anomalies i s → i = .escMarker ∧ t = { s with pendingUnescape := true }) ∧
    (Anomaly.an9 ∈ anomalies i s → ∃ b, i = .data b ∧ t.pendingUnescape = false ∧ t.events = s.events ∧
      t.mem.cellAt s.cursor.toNat = b &&& ~~~ Config.params.escMask)

/-! ## FEED and the stream -/

/-- A FEED step runs the decoded instruction on the state whose chunk is one instruction shorter, notes the byte, and the
callback it made has returned; a fault of the instruction is the step's. -/
def Obligations.FeedStepRunsDecoded : Prop :=
  ∀ (s : State) (b : Byte) (bs : List Byte) (rest : List Input) (i : Instr),
    s.phase = .live → s.dispatchPending = false → s.inputs = .feed (b :: bs) :: rest →
    decode Config.params (b :: bs) = .ok (i, bs) →
    (∀ t, exec i { s with inputs := .feed bs :: rest } = .next t →
      step s = .next { t with
        accepted := t.accepted ++ [b], completed := t.completed ++ t.events.drop s.events.length }) ∧
    (∀ f, exec i { s with inputs := .feed bs :: rest } = .fault f → step s = .fault f)

/-- The state with a fetched word placed: the very next step runs the instruction the decoder reads from it. -/
def Obligations.FetchWordRunsNext : Prop :=
  ∀ (s : State) (w : Nat) (i : Instr), s.phase = .live → s.dispatchPending = false → s.cursor.toNat ≤ Config.maxPacketLen →
    decodeTableWord 8 w = some i →
    ∃ t, exec i { s with inputs := .feed [] :: s.inputs } = .next t ∧
      step (s.withFetchWord 8 w) = .next { t with
        accepted := t.accepted ++ [BitVec.ofNat 8 w], completed := t.completed ++ t.events.drop s.events.length }

/-- R106: FEED of an empty chunk changes nothing and emits nothing. -/
def Obligations.EmptyFeedDoesNothing : Prop :=
  ∀ (s : State) (rest : List Input), s.phase = .live → s.dispatchPending = false → s.inputs = .feed [] :: rest →
    step s = .next { s with inputs := rest }

/-- R102, R118: the steps of a FEED are the left fold of the one-byte step over the chunk, every byte once, in order. -/
def Obligations.FeedIsTheFold : Prop :=
  ∀ (bs : List Byte) (s : State) (rest : List Input), s.phase = .live → s.dispatchPending = false →
    Inv s → s.inputs = .feed bs :: rest →
    ∃ t, Sys2Proof.core.run (bs.length + 1) s = .next t ∧ feedBytes bs { s with inputs := rest } = .next t

/-- R107: chunk boundaries carry no meaning, whatever the elaboration. -/
def Obligations.ChunkBoundariesCarryNoMeaning : Prop :=
  ∀ (P : Params) (C : Type) (xs ys : List Byte) (s : State P C),
    feedBytes (xs ++ ys) s = andThen (feedBytes xs s) (feedBytes ys)

/-- R105, R138: whatever the elaboration, a live decoder the invariant holds of accepts every byte sequence, ends live, and
keeps the invariant. -/
def Obligations.FeedAlwaysCompletes : Prop :=
  ∀ (P : Params) (C : Type) (bs : List Byte) (s : State P C), s.phase = .live → s.dispatchPending = false → Inv s →
    ∃ t, feedBytes bs s = .next t ∧ t.phase = .live ∧ Inv t ∧ t.accepted = s.accepted ++ bs

/-- R114: the well-formed packet theorem, in one chunk or split anywhere, for every legal parameter set and every type of
context. -/
def Obligations.WellFormedPacketIsDelivered : Prop :=
  ∀ (P : Params) (C : Type) (s : State P C) (p : List Byte), P.legal = true →
    s.phase = .live → BufWf s → s.cursor.toNat ≤ P.maxPacketLen →
    s.pendingUnescape = false → s.hasSink = true → 1 ≤ p.length → p.length ≤ P.maxPacketLen →
    ∃ t, t.events = s.events ++ [{ ctx := s.ctx, len := BitVec.ofNat P.cursorW p.length, data := p }] ∧
      t.inPacket = false ∧ t.pendingUnescape = false ∧ t.cursor.toNat = p.length ∧
      ∀ xs ys, xs ++ ys = encodeAll P (pkt P p) → andThen (feedBytes xs s) (feedBytes ys) = .next t

/-- R30: every combination of the flags, the cursor and the cells below it, with the other cells zero, is reached from
reset by some stream, for every legal parameter set and whatever the constants of the instance. -/
def Obligations.EveryCombinationIsReached : Prop :=
  ∀ (P : Params) (C : Type) (hasSink : Bool) (ctx : C) (inPacket pendingUnescape : Bool) (vs : List Byte),
    P.legal = true → vs.length ≤ P.maxPacketLen →
    ∃ (bs : List Byte) (t : State P C), feedBytes bs (State.initial hasSink ctx) = .next t ∧
      t.inPacket = inPacket ∧ t.pendingUnescape = pendingUnescape ∧
      t.cursor.toNat = vs.length ∧ ∀ a, t.mem.cellAt a = vs.getD a 0

/-- R31: states that agree on the constants, the flags and, inside a packet, on CURSOR and the cells below it, produce the
same dispatch events for every future input; outside a packet CURSOR and BUF make no difference at all. -/
def Obligations.HiddenStateIsUnobservable : Prop :=
  ∀ (P : Params) (C : Type) (s t : State P C) (bs : List Byte),
    s.phase = .live → t.phase = .live → Inv s → Inv t → SameView s t →
    ∃ s' t' es, feedBytes bs s = .next s' ∧ feedBytes bs t = .next t' ∧
      s'.events = s.events ++ es ∧ t'.events = t.events ++ es

/-! ## Level P -/

/-- A clock edge with an input transfer runs the decoded instruction, notes the byte, and DISPATCH_PENDING becomes 1 exactly
if it emitted an event (R124, R125); a fault of the instruction is the step's. -/
def Obligations.TransferRunsDecoded : Prop :=
  ∀ (s : State) (p : Pins) (rest : List Input) (i : Instr),
    s.phase = .live → s.dispatchPending = false → s.inputs = .edge p :: rest → p.rst = false → p.inValid = true →
    decode Config.params [p.inData] = .ok (i, []) →
    (∀ t, exec i { s with inputs := rest } = .next t →
      step s = .next { t with
        accepted := t.accepted ++ [p.inData]
        dispatchPending := decide (t.events ≠ s.events)
        cycle := t.cycle + 1 }) ∧
    (∀ f, exec i { s with inputs := rest } = .fault f → step s = .fault f)

/-- R135: the other edges. A pending dispatch is ended by `pkt_ready` and by nothing else but reset; with no transfer nothing
changes (the counter of the free values apart). -/
def Obligations.EdgeWithoutTransfer : Prop :=
  ∀ (s : State) (p : Pins) (rest : List Input), s.phase = .live → s.inputs = .edge p :: rest → p.rst = false →
    (s.dispatchPending = true → p.pktReady = false →
      step s = .next { s with inputs := rest, cycle := s.cycle + 1 }) ∧
    (s.dispatchPending = true → p.pktReady = true →
      step s = .next { s with
        inputs := rest, cycle := s.cycle + 1, dispatchPending := false
        completed := s.completed ++
          [{ ctx := s.ctx, len := s.cursor, data := (portDispatch s).data }] }) ∧
    (s.dispatchPending = false → p.inValid = false →
      step s = .next { s with inputs := rest, cycle := s.cycle + 1 })

/-- R133: a sink that never raises `pkt_ready` stalls the block for ever: whatever bytes are offered, after any number of
edges the dispatch is still pending, everything is frozen, and the outputs are what they were. -/
def Obligations.PendingDispatchFreezes : Prop :=
  ∀ (ps : List Pins) (s : State) (rest : List Input), s.phase = .live → s.dispatchPending = true →
    (∀ p ∈ ps, p.rst = false ∧ p.pktReady = false) → s.inputs = ps.map .edge ++ rest →
    ∃ t, Sys2Proof.core.run ps.length s = .next t ∧ t = { s with inputs := rest, cycle := s.cycle + ps.length } ∧
      ∀ a, outputs t a = outputs s a ∧ (outputs t a).inReady = false

/-- R122, R126 to R130: the outputs during a dispatch; a read below the length gives the packet's byte, one at or beyond it
0x00. -/
def Obligations.OutputsDuringDispatch : Prop :=
  ∀ (P : Params) (W : Nat) (s : State P (BitVec W)) (a : P.Raddr), s.phase = .live →
    (outputs s a).inReady = !s.dispatchPending ∧ (outputs s a).pktValid = s.dispatchPending ∧
    (s.dispatchPending = true → Inv s →
      (outputs s a).pktLen = s.cursor ∧ 1 ≤ s.cursor.toNat ∧ s.cursor.toNat ≤ P.maxPacketLen ∧
      (outputs s a).pktCtx = s.ctx ∧
      (outputs s a).pktRdata = (if a.toNat < s.cursor.toNat then s.mem.cellAt a.toNat else 0))

/-- R134: without a sink no step emits an event or sets DISPATCH_PENDING; `pkt_valid` stays 0 and `in_ready` 1. -/
def Obligations.NoSinkNoDispatch : Prop :=
  ∀ s t : State, s.phase = .live → s.hasSink = false → s.dispatchPending = false → s.events = [] →
    step s = .next t →
    t.hasSink = false ∧ t.dispatchPending = false ∧ t.events = [] ∧
    (t.phase = .live → ∀ a, (outputs t a).pktValid = false ∧ (outputs t a).inReady = true)

/-- R172: one edge takes at most one byte or ends at most one dispatch, never both. -/
def Obligations.EdgeDoesOneThing : Prop :=
  ∀ (s t : State) (p : Pins) (rest : List Input), s.inputs = .edge p :: rest → p.rst = false → step s = .next t →
    (t.accepted = s.accepted ∨ (t.accepted = s.accepted ++ [p.inData] ∧ s.dispatchPending = false)) ∧
    (t.completed = s.completed ∨ (∃ d, t.completed = s.completed ++ [d] ∧ s.dispatchPending = true)) ∧
    t.accepted.length + t.completed.length ≤ s.accepted.length + s.completed.length + 1

/-! ## Whole-machine rules -/

/-- The invariant of a run holds after reset. -/
def Obligations.RunInvariantAtReset : Prop := Inv State.reset

/-- R19, R20: every step keeps CURSOR at most MAX_PACKET_LEN, the cells at and beyond it at 0x00, the buffer canonical, and a
pending dispatch one of a closed, nonempty packet; so `step`, and so the step of any other elaboration. -/
def Obligations.StepKeepsRunInvariant : Prop :=
  (∀ s t : State, Inv s → step s = .next t → Inv t) ∧
  (∀ (P : Params) (W : Nat) (s t : State P (BitVec W)), Inv s → stepFor s = .next t → Inv t)

/-- R138: the block raises no fault. Where the invariant holds no step ends in one; inside its life, outside a dispatch,
every byte and every clock edge has a next state. -/
def Obligations.NothingFaults : Prop :=
  ∀ s : State, Inv s →
    (∀ f, step s ≠ .fault f) ∧
    (s.phase = .live →
      (∀ i, ∃ t, exec i s = .next t) ∧
      (∀ p rest, s.inputs = .edge p :: rest → ∃ t, step s = .next t) ∧
      (s.dispatchPending = false → ∀ chunk rest, s.inputs = .feed chunk :: rest → ∃ t, step s = .next t))

/-- Level P refines level T at reset. -/
def Obligations.RefinementAtReset : Prop := Refines State.reset

/-- R136: every step, of either level, keeps the refinement: the state is that of `run` of the accepted bytes, the events are
that run's, and the ended dispatches are all of them but a pending one, in order; so `step`, and so the step of any other
elaboration. -/
def Obligations.StepKeepsRefinement : Prop :=
  (∀ s t : State, Refines s → step s = .next t → Refines t) ∧
  (∀ (P : Params) (W : Nat) (s t : State P (BitVec W)), Refines s → stepFor s = .next t → Refines t)

/-- R115: every step keeps the bounds on the output: lengths in 1 .. MAX_PACKET_LEN, the number of bytes shown is the length,
the context is CTX, and at most one event per START and one per END accepted; so `step`, and so the step of any other
elaboration. -/
def Obligations.StepKeepsEventBounds : Prop :=
  EventsBounded State.reset ∧
  (∀ s t : State, EventsBounded s → step s = .next t → EventsBounded t) ∧
  (∀ (P : Params) (W : Nat) (s t : State P (BitVec W)), EventsBounded s → stepFor s = .next t → EventsBounded t)

/-- R117: decoders share nothing: a step of one leaves the others, and is the step it would make alone; a new CREATE makes a
new decoder in the reset state and leaves the others. -/
def Obligations.DecodersAreIndependent : Prop :=
  (∀ (h : Nat) (ds es : List State), stepDecoder h ds = .next es →
    (∀ k, k ≠ h → es[k]? = ds[k]?) ∧ ∃ s t, ds[h]? = some s ∧ step s = .next t ∧ es[h]? = some t) ∧
  (∀ (hasSink : Bool) (ctx : Config.Ctx) (ds : List State),
    (∀ k, k < ds.length → (createDecoder hasSink ctx ds)[k]? = ds[k]?) ∧
    (createDecoder hasSink ctx ds)[ds.length]? = some (State.initial hasSink ctx))
end

