-- ==== Sys2Proof/Laws/Widths.lean ====
section
/-! SUPPORT. The widths of CURSOR and of the read index: each holds its values, and it is the least that does. -/

namespace Sys2Proof

/-- The width found is enough, if the fuel reaches up to one that is. -/
theorem lt_two_pow_leastWidthFrom {n fuel w : Nat} (h : n < 2 ^ (w + fuel)) : n < 2 ^ leastWidthFrom n fuel w := by
  induction fuel generalizing w with
  | zero => exact h
  | succ fuel ih =>
    rw [leastWidthFrom]
    split
    · assumption
    · exact ih (by rwa [Nat.add_right_comm])

/-- No smaller width from the first one tried on is enough. -/
theorem leastWidthFrom_le {n fuel w v : Nat} (hv : n < 2 ^ v) (hw : w ≤ v) : leastWidthFrom n fuel w ≤ v := by
  induction fuel generalizing w with
  | zero => exact hw
  | succ fuel ih =>
    rw [leastWidthFrom]
    split
    · exact hw
    · refine ih (Nat.lt_of_le_of_ne hw ?_)
      rintro rfl
      contradiction

theorem lt_two_pow_leastWidth (n : Nat) : n < 2 ^ leastWidth n :=
  lt_two_pow_leastWidthFrom (by simpa using Nat.lt_two_pow_self)

theorem leastWidth_le {n v : Nat} (h : n < 2 ^ v) : leastWidth n ≤ v := leastWidthFrom_le h (Nat.zero_le v)

/-- CURSOR can hold MAX_PACKET_LEN (R7). -/
theorem Params.lt_two_pow_cursorW (p : Params) : p.maxPacketLen < 2 ^ p.cursorW := lt_two_pow_leastWidth _

/-- The read index can name every cell (R119). -/
theorem Params.le_two_pow_raddrW (p : Params) : p.maxPacketLen ≤ 2 ^ p.raddrW :=
  Nat.le_of_pred_lt (lt_two_pow_leastWidth (p.maxPacketLen - 1))

/-- A length is the value of the CURSOR that holds it. -/
theorem Params.toNat_ofNat_cursor {p : Params} {n : Nat} (h : n ≤ p.maxPacketLen) :
    (BitVec.ofNat p.cursorW n).toNat = n := by
  rw [BitVec.toNat_ofNat, Nat.mod_eq_of_lt (Nat.lt_of_le_of_lt h p.lt_two_pow_cursorW)]

/-- The index of a cell is the value of the read index that names it. -/
theorem Params.toNat_ofNat_raddr {p : Params} {n : Nat} (h : n < p.maxPacketLen) :
    (BitVec.ofNat p.raddrW n).toNat = n := by
  rw [BitVec.toNat_ofNat, Nat.mod_eq_of_lt (Nat.lt_of_lt_of_le h p.le_two_pow_raddrW)]

end Sys2Proof
end

