-- ==== Sys2Proof/Laws/Flags.lean ====
section
/-! SUPPORT. The tests on the state and the operand of a DATA byte, each in the arithmetic it stands for. -/

namespace Sys2Proof.Machine

variable {P : Params} {C : Type} {s : State P C}

theorem hasRoom_eq_true : s.hasRoom = true ↔ s.cursor.toNat < P.maxPacketLen := decide_eq_true_iff

theorem hasRoom_eq_false : s.hasRoom = false ↔ P.maxPacketLen ≤ s.cursor.toNat := by
  rw [State.hasRoom, decide_eq_false_iff_not, Nat.not_lt]

theorem mayDispatch_eq_true :
    s.mayDispatch = true ↔ s.inPacket = true ∧ 0 < s.cursor.toNat ∧ s.hasSink = true := by
  simp [State.mayDispatch, and_assoc]

theorem storeIndex_eq : s.storeIndex = s.cursor.toNat := rfl

/-- With room CURSOR + 1 does not wrap (R97). -/
theorem cursor_succ (h : s.cursor.toNat < P.maxPacketLen) : (s.cursor + 1).toNat = s.cursor.toNat + 1 := by
  have hw := P.lt_two_pow_cursorW
  have h1 : (1#P.cursorW).toNat = 1 := Params.toNat_ofNat_cursor (Nat.one_le_of_lt h)
  rw [show s.cursor + 1 = s.cursor + 1#P.cursorW from rfl, BitVec.toNat_add, h1, Nat.mod_eq_of_lt (by omega)]

@[simp] theorem dataOperand_plain (b : Byte) : dataOperand P false b = b := rfl

@[simp] theorem dataOperand_pending (b : Byte) : dataOperand P true b = unescape P b := rfl

end Sys2Proof.Machine
end

