-- ==== Sys2Proof/Laws/Memory.lean ====
section
/-! SUPPORT. The buffer: a read after a write, what each memory operation does, that each keeps the canonical form, and that
canonical buffers with the same cells are equal. -/

namespace Sys2Proof.Machine

variable {cap : Nat}

@[simp] theorem Memory.cellAt_nil (a : Nat) : Memory.cellAt [] a = 0 := rfl

theorem Memory.cellAt_cons (k : Nat) (v : Byte) (m : Memory) (a : Nat) :
    Memory.cellAt ((k, v) :: m) a = if k = a then v else Memory.cellAt m a := rfl

/-- A cell that is not listed reads 0x00. -/
theorem Memory.cellAt_unlisted {m : Memory} {a : Nat} (h : ∀ c ∈ m, c.1 ≠ a) : m.cellAt a = 0 := by
  induction m with
  | nil => rfl
  | cons c m ih =>
    obtain ⟨k, v⟩ := c
    rw [cellAt_cons, if_neg (h (k, v) (List.mem_cons_self ..)), ih fun c hc => h c (List.mem_cons_of_mem _ hc)]

theorem Memory.cellAt_of_mem {m : Memory} (h : m.Pairwise (fun x y => x.1 < y.1)) {c : Host.Cell} (hc : c ∈ m) :
    m.cellAt c.1 = c.2 := by
  induction m with
  | nil => simp at hc
  | cons d m ih =>
    obtain ⟨k, v⟩ := d
    rw [List.pairwise_cons] at h
    rcases List.mem_cons.mp hc with rfl | hc
    · simp [cellAt_cons]
    · rw [cellAt_cons, if_neg (Nat.ne_of_lt (h.1 c hc)), ih h.2 hc]

/-- The buffer's tail is canonical too. -/
theorem Memory.wf_tail {c : Host.Cell} {m : Memory} (h : Memory.wf cap (c :: m)) : Memory.wf cap m :=
  ⟨h.1.of_cons, fun d hd => h.2 d (List.mem_cons_of_mem _ hd)⟩

theorem Memory.wf_nil : Memory.wf cap [] := ⟨List.Pairwise.nil, by simp⟩

/-- A canonical buffer with a new first entry. -/
theorem Memory.wf_cons {k : Nat} {v : Byte} {m : Memory} (hm : Memory.wf cap m) (hk : ∀ c ∈ m, k < c.1)
    (h : k < cap) (hv : v ≠ 0) : Memory.wf cap ((k, v) :: m) := by
  refine ⟨List.pairwise_cons.mpr ⟨hk, hm.1⟩, fun c hc => ?_⟩
  rcases List.mem_cons.mp hc with rfl | hc
  · exact ⟨h, hv⟩
  · exact hm.2 c hc

/-- The first entry of a canonical buffer lies below the others. -/
theorem Memory.wf_head {k : Nat} {v : Byte} {m : Memory} (h : Memory.wf cap ((k, v) :: m)) :
    (∀ c ∈ m, k < c.1) ∧ k < cap ∧ v ≠ 0 :=
  ⟨fun c hc => (List.pairwise_cons.mp h.1).1 c hc, h.2 (k, v) (List.mem_cons_self ..)⟩

theorem Memory.update_nil (a : Nat) (v : Byte) : Memory.update [] a v = if v = 0 then [] else [(a, v)] := rfl

theorem Memory.update_cons (k : Nat) (w : Byte) (m : Memory) (a : Nat) (v : Byte) :
    Memory.update ((k, w) :: m) a v =
      if k < a then (k, w) :: Memory.update m a v
      else if k = a then (if v = 0 then m else (a, v) :: m)
      else (if v = 0 then (k, w) :: m else (a, v) :: (k, w) :: m) := rfl

/-- The entries of an update: old ones and the one written. -/
theorem Memory.mem_update {m : Memory} {a : Nat} {v : Byte} {c : Host.Cell} (h : c ∈ Memory.update m a v) :
    c ∈ m ∨ c = (a, v) := by
  induction m with
  | nil =>
    rw [update_nil] at h
    split at h
    · cases h
    · exact .inr (List.mem_singleton.mp h)
  | cons d m ih =>
    obtain ⟨k, w⟩ := d
    rw [update_cons] at h
    split at h
    · rcases List.mem_cons.mp h with rfl | h
      · exact .inl (List.mem_cons_self ..)
      · exact (ih h).imp_left (List.mem_cons_of_mem _)
    · split at h <;> split at h <;> simp only [List.mem_cons] at h ⊢ <;> tauto

/-- A write keeps the canonical form. -/
theorem Memory.update_wf {m : Memory} (h : Memory.wf cap m) {a : Nat} (ha : a < cap) (v : Byte) :
    Memory.wf cap (Memory.update m a v) := by
  induction m with
  | nil =>
    rw [update_nil]
    split
    · exact wf_nil
    · exact wf_cons wf_nil (by simp) ha ‹_›
  | cons d m ih =>
    obtain ⟨k, w⟩ := d
    obtain ⟨hk, hlt, hw⟩ := wf_head h
    rw [update_cons]
    split
    · refine wf_cons (ih (wf_tail h)) (fun c hc => ?_) hlt hw
      rcases mem_update hc with hc | rfl
      · exact hk c hc
      · assumption
    · split <;> split
      · exact wf_tail h
      · exact wf_cons (wf_tail h) (fun c hc => by have := hk c hc; omega) ha ‹_›
      · exact h
      · refine wf_cons h (fun c hc => ?_) ha ‹_›
        rcases List.mem_cons.mp hc with rfl | hc
        · simp only; omega
        · have := hk c hc; omega

/-- A read after a write: the value written at the cell written, the old value everywhere else. -/
theorem Memory.cellAt_update {m : Memory} (h : Memory.wf cap m) (a b : Nat) (v : Byte) :
    Memory.cellAt (Memory.update m a v) b = if b = a then v else Memory.cellAt m b := by
  induction m with
  | nil =>
    rw [update_nil]
    split
    · subst_vars; simp
    · simp only [cellAt_cons, cellAt_nil, eq_comm]
  | cons d m ih =>
    obtain ⟨k, w⟩ := d
    obtain ⟨hk, -, -⟩ := wf_head h
    have free {x : Nat} (hx : x ≤ k) : Memory.cellAt m x = 0 :=
      cellAt_unlisted fun c hc => by have := hk c hc; omega
    rw [update_cons]
    split
    · rw [cellAt_cons, ih (wf_tail h), cellAt_cons]
      grind
    · split <;> split <;> simp only [cellAt_cons] <;> grind

/-- Canonical buffers with the same cells are the same list. -/
theorem Memory.ext_of_cellAt {m n : Memory} (hm : m.wf cap) (hn : n.wf cap) (h : ∀ a, m.cellAt a = n.cellAt a) : m = n := by
  induction m generalizing n with
  | nil =>
    cases n with
    | nil => rfl
    | cons c n =>
      have := h c.1
      rw [cellAt_of_mem hn.1 (List.mem_cons_self ..)] at this
      exact absurd this.symm (hn.2 c (List.mem_cons_self ..)).2
  | cons c m ih =>
    cases n with
    | nil =>
      have := h c.1
      rw [cellAt_of_mem hm.1 (List.mem_cons_self ..)] at this
      exact absurd this (hm.2 c (List.mem_cons_self ..)).2
    | cons d n =>
      obtain ⟨k, v⟩ := c
      obtain ⟨l, w⟩ := d
      have hm1 := List.pairwise_cons.mp hm.1
      have hn1 := List.pairwise_cons.mp hn.1
      have hv := (hm.2 (k, v) (List.mem_cons_self ..)).2
      have hw := (hn.2 (l, w) (List.mem_cons_self ..)).2
      have hkl : k = l := by
        rcases Nat.lt_trichotomy k l with hlt | rfl | hlt
        · have hk := h k
          rw [cellAt_cons, if_pos rfl, cellAt_unlisted] at hk
          · exact absurd hk hv
          · intro c hc
            rcases List.mem_cons.mp hc with rfl | hc
            · exact (Nat.ne_of_lt hlt).symm
            · have := hn1.1 c hc; simp only at this; omega
        · rfl
        · have hk := h l
          rw [cellAt_cons (a := l) (k := l), if_pos rfl, cellAt_unlisted] at hk
          · exact absurd hk.symm hw
          · intro c hc
            rcases List.mem_cons.mp hc with rfl | hc
            · exact (Nat.ne_of_lt hlt).symm
            · have := hm1.1 c hc; simp only at this; omega
      subst hkl
      have hvw : v = w := by simpa [cellAt_cons] using h k
      subst hvw
      congr 1
      refine ih (wf_tail hm) (wf_tail hn) fun a => ?_
      by_cases ha : k = a
      · subst ha
        rw [cellAt_unlisted, cellAt_unlisted] <;> intro c hc
        · have := hn1.1 c hc; simp only at this; omega
        · have := hm1.1 c hc; simp only at this; omega
      · simpa [cellAt_cons, ha] using h a

/-- What a one-byte write answers. -/
theorem Memory.write_eq_ok {m m' : Memory} {a : Nat} {v : Byte} :
    m.write cap a v = .ok m' ↔ a < cap ∧ m' = m.update a v := by
  unfold write; split <;> simp_all [eq_comm]

/-- What a one-byte read answers. -/
theorem Memory.read_eq_ok {m : Memory} {a : Nat} {v : Byte} :
    m.read cap a = .ok v ↔ a < cap ∧ v = m.cellAt a := by
  unfold read; split <;> simp_all [eq_comm]

/-- Everything the clear can do: it answers exactly when the cells exist; then the cells below `n` read 0x00, the others are
as before, and the form is canonical. -/
theorem Memory.clearBelow_spec {m : Memory} (h : m.wf cap) (n : Nat) :
    if n ≤ cap then
      ∃ m', m.clearBelow cap n = .ok m' ∧ m'.wf cap ∧ ∀ a, m'.cellAt a = if a < n then 0 else m.cellAt a
    else ∃ f, m.clearBelow cap n = .error f := by
  induction n with
  | zero => exact ⟨m, rfl, h, fun a => by simp⟩
  | succ n ih =>
    split at ih
    · obtain ⟨m', e, hw, hl⟩ := ih
      unfold clearBelow
      rw [e]
      by_cases hn : n < cap
      · rw [if_pos (by omega)]
        refine ⟨m'.update n 0, by simp [write, hn], update_wf hw hn 0, fun a => ?_⟩
        rw [cellAt_update hw, hl]
        split <;> split <;> first | rfl | (split <;> first | rfl | omega) | omega
      · rw [if_neg (by omega)]
        exact ⟨.bufferIndex n, by simp [write, hn]⟩
    · obtain ⟨f, e⟩ := ih
      rw [if_neg (by omega)]
      exact ⟨f, by simp [clearBelow, e]⟩

/-- The clear completes whenever its cells exist, canonical or not. -/
theorem Memory.clearBelow_completes (m : Memory) {n : Nat} (h : n ≤ cap) :
    ∃ m', m.clearBelow cap n = .ok m' := by
  induction n with
  | zero => exact ⟨m, rfl⟩
  | succ n ih =>
    obtain ⟨m', e⟩ := ih (by omega)
    exact ⟨m'.update n 0, by simp [clearBelow, e, write, show n < cap by omega]⟩

/-- Everything a read of the cells below `n` can do. -/
theorem Memory.readBelow_spec (m : Memory) (n : Nat) :
    if n ≤ cap then m.readBelow cap n = .ok ((List.range n).map m.cellAt)
    else ∃ f, m.readBelow cap n = .error f := by
  induction n with
  | zero => simp [readBelow]
  | succ n ih =>
    split at ih
    · by_cases hn : n < cap
      · rw [if_pos (by omega)]
        simp [readBelow, ih, read, hn, List.range_succ]
      · rw [if_neg (by omega)]
        exact ⟨.bufferIndex n, by simp [readBelow, ih, read, hn]⟩
    · obtain ⟨f, e⟩ := ih
      rw [if_neg (by omega)]
      exact ⟨f, by simp [readBelow, e]⟩

end Sys2Proof.Machine
end

