-- ==== Sys2Proof/Laws/State.lean ====
section
/-! SUPPORT. Each update of the state, field by field: what it writes and what it leaves. No proof needs to unfold a record
update. -/

namespace Sys2Proof.Machine

variable {P : Params} {C : Type} (s : State P C)

@[simp] theorem State.setMem_mem (m : Memory) : (s.setMem m).mem = m := rfl
@[simp] theorem State.setMem_cursor (m : Memory) : (s.setMem m).cursor = s.cursor := rfl
@[simp] theorem State.setMem_inPacket (m : Memory) : (s.setMem m).inPacket = s.inPacket := rfl
@[simp] theorem State.setMem_pendingUnescape (m : Memory) : (s.setMem m).pendingUnescape = s.pendingUnescape := rfl
@[simp] theorem State.setMem_hasSink (m : Memory) : (s.setMem m).hasSink = s.hasSink := rfl
@[simp] theorem State.setMem_ctx (m : Memory) : (s.setMem m).ctx = s.ctx := rfl
@[simp] theorem State.setMem_phase (m : Memory) : (s.setMem m).phase = s.phase := rfl
@[simp] theorem State.setMem_dispatchPending (m : Memory) : (s.setMem m).dispatchPending = s.dispatchPending := rfl
@[simp] theorem State.setMem_inputs (m : Memory) : (s.setMem m).inputs = s.inputs := rfl
@[simp] theorem State.setMem_accepted (m : Memory) : (s.setMem m).accepted = s.accepted := rfl
@[simp] theorem State.setMem_events (m : Memory) : (s.setMem m).events = s.events := rfl
@[simp] theorem State.setMem_completed (m : Memory) : (s.setMem m).completed = s.completed := rfl
@[simp] theorem State.setMem_cycle (m : Memory) : (s.setMem m).cycle = s.cycle := rfl

@[simp] theorem State.setCursor_mem (c : P.Cursor) : (s.setCursor c).mem = s.mem := rfl
@[simp] theorem State.setCursor_cursor (c : P.Cursor) : (s.setCursor c).cursor = c := rfl
@[simp] theorem State.setCursor_inPacket (c : P.Cursor) : (s.setCursor c).inPacket = s.inPacket := rfl
@[simp] theorem State.setCursor_pendingUnescape (c : P.Cursor) : (s.setCursor c).pendingUnescape = s.pendingUnescape := rfl
@[simp] theorem State.setCursor_hasSink (c : P.Cursor) : (s.setCursor c).hasSink = s.hasSink := rfl
@[simp] theorem State.setCursor_ctx (c : P.Cursor) : (s.setCursor c).ctx = s.ctx := rfl
@[simp] theorem State.setCursor_phase (c : P.Cursor) : (s.setCursor c).phase = s.phase := rfl
@[simp] theorem State.setCursor_dispatchPending (c : P.Cursor) : (s.setCursor c).dispatchPending = s.dispatchPending := rfl
@[simp] theorem State.setCursor_inputs (c : P.Cursor) : (s.setCursor c).inputs = s.inputs := rfl
@[simp] theorem State.setCursor_accepted (c : P.Cursor) : (s.setCursor c).accepted = s.accepted := rfl
@[simp] theorem State.setCursor_events (c : P.Cursor) : (s.setCursor c).events = s.events := rfl
@[simp] theorem State.setCursor_completed (c : P.Cursor) : (s.setCursor c).completed = s.completed := rfl
@[simp] theorem State.setCursor_cycle (c : P.Cursor) : (s.setCursor c).cycle = s.cycle := rfl

@[simp] theorem State.setInPacket_mem (v : Bool) : (s.setInPacket v).mem = s.mem := rfl
@[simp] theorem State.setInPacket_cursor (v : Bool) : (s.setInPacket v).cursor = s.cursor := rfl
@[simp] theorem State.setInPacket_inPacket (v : Bool) : (s.setInPacket v).inPacket = v := rfl
@[simp] theorem State.setInPacket_pendingUnescape (v : Bool) : (s.setInPacket v).pendingUnescape = s.pendingUnescape := rfl
@[simp] theorem State.setInPacket_hasSink (v : Bool) : (s.setInPacket v).hasSink = s.hasSink := rfl
@[simp] theorem State.setInPacket_ctx (v : Bool) : (s.setInPacket v).ctx = s.ctx := rfl
@[simp] theorem State.setInPacket_phase (v : Bool) : (s.setInPacket v).phase = s.phase := rfl
@[simp] theorem State.setInPacket_dispatchPending (v : Bool) : (s.setInPacket v).dispatchPending = s.dispatchPending := rfl
@[simp] theorem State.setInPacket_inputs (v : Bool) : (s.setInPacket v).inputs = s.inputs := rfl
@[simp] theorem State.setInPacket_accepted (v : Bool) : (s.setInPacket v).accepted = s.accepted := rfl
@[simp] theorem State.setInPacket_events (v : Bool) : (s.setInPacket v).events = s.events := rfl
@[simp] theorem State.setInPacket_completed (v : Bool) : (s.setInPacket v).completed = s.completed := rfl
@[simp] theorem State.setInPacket_cycle (v : Bool) : (s.setInPacket v).cycle = s.cycle := rfl

@[simp] theorem State.setPendingUnescape_mem (v : Bool) : (s.setPendingUnescape v).mem = s.mem := rfl
@[simp] theorem State.setPendingUnescape_cursor (v : Bool) : (s.setPendingUnescape v).cursor = s.cursor := rfl
@[simp] theorem State.setPendingUnescape_inPacket (v : Bool) : (s.setPendingUnescape v).inPacket = s.inPacket := rfl
@[simp] theorem State.setPendingUnescape_pendingUnescape (v : Bool) : (s.setPendingUnescape v).pendingUnescape = v := rfl
@[simp] theorem State.setPendingUnescape_hasSink (v : Bool) : (s.setPendingUnescape v).hasSink = s.hasSink := rfl
@[simp] theorem State.setPendingUnescape_ctx (v : Bool) : (s.setPendingUnescape v).ctx = s.ctx := rfl
@[simp] theorem State.setPendingUnescape_phase (v : Bool) : (s.setPendingUnescape v).phase = s.phase := rfl
@[simp] theorem State.setPendingUnescape_dispatchPending (v : Bool) : (s.setPendingUnescape v).dispatchPending = s.dispatchPending := rfl
@[simp] theorem State.setPendingUnescape_inputs (v : Bool) : (s.setPendingUnescape v).inputs = s.inputs := rfl
@[simp] theorem State.setPendingUnescape_accepted (v : Bool) : (s.setPendingUnescape v).accepted = s.accepted := rfl
@[simp] theorem State.setPendingUnescape_events (v : Bool) : (s.setPendingUnescape v).events = s.events := rfl
@[simp] theorem State.setPendingUnescape_completed (v : Bool) : (s.setPendingUnescape v).completed = s.completed := rfl
@[simp] theorem State.setPendingUnescape_cycle (v : Bool) : (s.setPendingUnescape v).cycle = s.cycle := rfl

@[simp] theorem State.setPhase_mem (p : Phase) : (s.setPhase p).mem = s.mem := rfl
@[simp] theorem State.setPhase_cursor (p : Phase) : (s.setPhase p).cursor = s.cursor := rfl
@[simp] theorem State.setPhase_inPacket (p : Phase) : (s.setPhase p).inPacket = s.inPacket := rfl
@[simp] theorem State.setPhase_pendingUnescape (p : Phase) : (s.setPhase p).pendingUnescape = s.pendingUnescape := rfl
@[simp] theorem State.setPhase_hasSink (p : Phase) : (s.setPhase p).hasSink = s.hasSink := rfl
@[simp] theorem State.setPhase_ctx (p : Phase) : (s.setPhase p).ctx = s.ctx := rfl
@[simp] theorem State.setPhase_phase (p : Phase) : (s.setPhase p).phase = p := rfl
@[simp] theorem State.setPhase_dispatchPending (p : Phase) : (s.setPhase p).dispatchPending = s.dispatchPending := rfl
@[simp] theorem State.setPhase_inputs (p : Phase) : (s.setPhase p).inputs = s.inputs := rfl
@[simp] theorem State.setPhase_accepted (p : Phase) : (s.setPhase p).accepted = s.accepted := rfl
@[simp] theorem State.setPhase_events (p : Phase) : (s.setPhase p).events = s.events := rfl
@[simp] theorem State.setPhase_completed (p : Phase) : (s.setPhase p).completed = s.completed := rfl
@[simp] theorem State.setPhase_cycle (p : Phase) : (s.setPhase p).cycle = s.cycle := rfl

@[simp] theorem State.setDispatchPending_mem (v : Bool) : (s.setDispatchPending v).mem = s.mem := rfl
@[simp] theorem State.setDispatchPending_cursor (v : Bool) : (s.setDispatchPending v).cursor = s.cursor := rfl
@[simp] theorem State.setDispatchPending_inPacket (v : Bool) : (s.setDispatchPending v).inPacket = s.inPacket := rfl
@[simp] theorem State.setDispatchPending_pendingUnescape (v : Bool) : (s.setDispatchPending v).pendingUnescape = s.pendingUnescape := rfl
@[simp] theorem State.setDispatchPending_hasSink (v : Bool) : (s.setDispatchPending v).hasSink = s.hasSink := rfl
@[simp] theorem State.setDispatchPending_ctx (v : Bool) : (s.setDispatchPending v).ctx = s.ctx := rfl
@[simp] theorem State.setDispatchPending_phase (v : Bool) : (s.setDispatchPending v).phase = s.phase := rfl
@[simp] theorem State.setDispatchPending_dispatchPending (v : Bool) : (s.setDispatchPending v).dispatchPending = v := rfl
@[simp] theorem State.setDispatchPending_inputs (v : Bool) : (s.setDispatchPending v).inputs = s.inputs := rfl
@[simp] theorem State.setDispatchPending_accepted (v : Bool) : (s.setDispatchPending v).accepted = s.accepted := rfl
@[simp] theorem State.setDispatchPending_events (v : Bool) : (s.setDispatchPending v).events = s.events := rfl
@[simp] theorem State.setDispatchPending_completed (v : Bool) : (s.setDispatchPending v).completed = s.completed := rfl
@[simp] theorem State.setDispatchPending_cycle (v : Bool) : (s.setDispatchPending v).cycle = s.cycle := rfl

@[simp] theorem State.setInputs_mem (xs : List (Input P C)) : (s.setInputs xs).mem = s.mem := rfl
@[simp] theorem State.setInputs_cursor (xs : List (Input P C)) : (s.setInputs xs).cursor = s.cursor := rfl
@[simp] theorem State.setInputs_inPacket (xs : List (Input P C)) : (s.setInputs xs).inPacket = s.inPacket := rfl
@[simp] theorem State.setInputs_pendingUnescape (xs : List (Input P C)) : (s.setInputs xs).pendingUnescape = s.pendingUnescape := rfl
@[simp] theorem State.setInputs_hasSink (xs : List (Input P C)) : (s.setInputs xs).hasSink = s.hasSink := rfl
@[simp] theorem State.setInputs_ctx (xs : List (Input P C)) : (s.setInputs xs).ctx = s.ctx := rfl
@[simp] theorem State.setInputs_phase (xs : List (Input P C)) : (s.setInputs xs).phase = s.phase := rfl
@[simp] theorem State.setInputs_dispatchPending (xs : List (Input P C)) : (s.setInputs xs).dispatchPending = s.dispatchPending := rfl
@[simp] theorem State.setInputs_inputs (xs : List (Input P C)) : (s.setInputs xs).inputs = xs := rfl
@[simp] theorem State.setInputs_accepted (xs : List (Input P C)) : (s.setInputs xs).accepted = s.accepted := rfl
@[simp] theorem State.setInputs_events (xs : List (Input P C)) : (s.setInputs xs).events = s.events := rfl
@[simp] theorem State.setInputs_completed (xs : List (Input P C)) : (s.setInputs xs).completed = s.completed := rfl
@[simp] theorem State.setInputs_cycle (xs : List (Input P C)) : (s.setInputs xs).cycle = s.cycle := rfl

@[simp] theorem State.accept_mem (b : Byte) : (s.accept b).mem = s.mem := rfl
@[simp] theorem State.accept_cursor (b : Byte) : (s.accept b).cursor = s.cursor := rfl
@[simp] theorem State.accept_inPacket (b : Byte) : (s.accept b).inPacket = s.inPacket := rfl
@[simp] theorem State.accept_pendingUnescape (b : Byte) : (s.accept b).pendingUnescape = s.pendingUnescape := rfl
@[simp] theorem State.accept_hasSink (b : Byte) : (s.accept b).hasSink = s.hasSink := rfl
@[simp] theorem State.accept_ctx (b : Byte) : (s.accept b).ctx = s.ctx := rfl
@[simp] theorem State.accept_phase (b : Byte) : (s.accept b).phase = s.phase := rfl
@[simp] theorem State.accept_dispatchPending (b : Byte) : (s.accept b).dispatchPending = s.dispatchPending := rfl
@[simp] theorem State.accept_inputs (b : Byte) : (s.accept b).inputs = s.inputs := rfl
@[simp] theorem State.accept_accepted (b : Byte) : (s.accept b).accepted = s.accepted ++ [b] := rfl
@[simp] theorem State.accept_events (b : Byte) : (s.accept b).events = s.events := rfl
@[simp] theorem State.accept_completed (b : Byte) : (s.accept b).completed = s.completed := rfl
@[simp] theorem State.accept_cycle (b : Byte) : (s.accept b).cycle = s.cycle := rfl

@[simp] theorem State.emit_mem (d : Dispatch P C) : (s.emit d).mem = s.mem := rfl
@[simp] theorem State.emit_cursor (d : Dispatch P C) : (s.emit d).cursor = s.cursor := rfl
@[simp] theorem State.emit_inPacket (d : Dispatch P C) : (s.emit d).inPacket = s.inPacket := rfl
@[simp] theorem State.emit_pendingUnescape (d : Dispatch P C) : (s.emit d).pendingUnescape = s.pendingUnescape := rfl
@[simp] theorem State.emit_hasSink (d : Dispatch P C) : (s.emit d).hasSink = s.hasSink := rfl
@[simp] theorem State.emit_ctx (d : Dispatch P C) : (s.emit d).ctx = s.ctx := rfl
@[simp] theorem State.emit_phase (d : Dispatch P C) : (s.emit d).phase = s.phase := rfl
@[simp] theorem State.emit_dispatchPending (d : Dispatch P C) : (s.emit d).dispatchPending = s.dispatchPending := rfl
@[simp] theorem State.emit_inputs (d : Dispatch P C) : (s.emit d).inputs = s.inputs := rfl
@[simp] theorem State.emit_accepted (d : Dispatch P C) : (s.emit d).accepted = s.accepted := rfl
@[simp] theorem State.emit_events (d : Dispatch P C) : (s.emit d).events = s.events ++ [d] := rfl
@[simp] theorem State.emit_completed (d : Dispatch P C) : (s.emit d).completed = s.completed := rfl
@[simp] theorem State.emit_cycle (d : Dispatch P C) : (s.emit d).cycle = s.cycle := rfl

@[simp] theorem State.complete_mem (ds : List (Dispatch P C)) : (s.complete ds).mem = s.mem := rfl
@[simp] theorem State.complete_cursor (ds : List (Dispatch P C)) : (s.complete ds).cursor = s.cursor := rfl
@[simp] theorem State.complete_inPacket (ds : List (Dispatch P C)) : (s.complete ds).inPacket = s.inPacket := rfl
@[simp] theorem State.complete_pendingUnescape (ds : List (Dispatch P C)) : (s.complete ds).pendingUnescape = s.pendingUnescape := rfl
@[simp] theorem State.complete_hasSink (ds : List (Dispatch P C)) : (s.complete ds).hasSink = s.hasSink := rfl
@[simp] theorem State.complete_ctx (ds : List (Dispatch P C)) : (s.complete ds).ctx = s.ctx := rfl
@[simp] theorem State.complete_phase (ds : List (Dispatch P C)) : (s.complete ds).phase = s.phase := rfl
@[simp] theorem State.complete_dispatchPending (ds : List (Dispatch P C)) : (s.complete ds).dispatchPending = s.dispatchPending := rfl
@[simp] theorem State.complete_inputs (ds : List (Dispatch P C)) : (s.complete ds).inputs = s.inputs := rfl
@[simp] theorem State.complete_accepted (ds : List (Dispatch P C)) : (s.complete ds).accepted = s.accepted := rfl
@[simp] theorem State.complete_events (ds : List (Dispatch P C)) : (s.complete ds).events = s.events := rfl
@[simp] theorem State.complete_completed (ds : List (Dispatch P C)) : (s.complete ds).completed = s.completed ++ ds := rfl
@[simp] theorem State.complete_cycle (ds : List (Dispatch P C)) : (s.complete ds).cycle = s.cycle := rfl

@[simp] theorem State.tick_mem : s.tick.mem = s.mem := rfl
@[simp] theorem State.tick_cursor : s.tick.cursor = s.cursor := rfl
@[simp] theorem State.tick_inPacket : s.tick.inPacket = s.inPacket := rfl
@[simp] theorem State.tick_pendingUnescape : s.tick.pendingUnescape = s.pendingUnescape := rfl
@[simp] theorem State.tick_hasSink : s.tick.hasSink = s.hasSink := rfl
@[simp] theorem State.tick_ctx : s.tick.ctx = s.ctx := rfl
@[simp] theorem State.tick_phase : s.tick.phase = s.phase := rfl
@[simp] theorem State.tick_dispatchPending : s.tick.dispatchPending = s.dispatchPending := rfl
@[simp] theorem State.tick_inputs : s.tick.inputs = s.inputs := rfl
@[simp] theorem State.tick_accepted : s.tick.accepted = s.accepted := rfl
@[simp] theorem State.tick_events : s.tick.events = s.events := rfl
@[simp] theorem State.tick_completed : s.tick.completed = s.completed := rfl
@[simp] theorem State.tick_cycle : s.tick.cycle = s.cycle + 1 := rfl

@[simp] theorem State.construct_mem (h : Bool) (c : C) : (s.construct h c).mem = [] := rfl
@[simp] theorem State.construct_cursor (h : Bool) (c : C) : (s.construct h c).cursor = 0 := rfl
@[simp] theorem State.construct_inPacket (h : Bool) (c : C) : (s.construct h c).inPacket = false := rfl
@[simp] theorem State.construct_pendingUnescape (h : Bool) (c : C) : (s.construct h c).pendingUnescape = false := rfl
@[simp] theorem State.construct_hasSink (h : Bool) (c : C) : (s.construct h c).hasSink = h := rfl
@[simp] theorem State.construct_ctx (h : Bool) (c : C) : (s.construct h c).ctx = c := rfl
@[simp] theorem State.construct_phase (h : Bool) (c : C) : (s.construct h c).phase = .live := rfl
@[simp] theorem State.construct_dispatchPending (h : Bool) (c : C) : (s.construct h c).dispatchPending = false := rfl
@[simp] theorem State.construct_inputs (h : Bool) (c : C) : (s.construct h c).inputs = s.inputs := rfl
@[simp] theorem State.construct_accepted (h : Bool) (c : C) : (s.construct h c).accepted = [] := rfl
@[simp] theorem State.construct_events (h : Bool) (c : C) : (s.construct h c).events = [] := rfl
@[simp] theorem State.construct_completed (h : Bool) (c : C) : (s.construct h c).completed = [] := rfl
@[simp] theorem State.construct_cycle (h : Bool) (c : C) : (s.construct h c).cycle = s.cycle := rfl

end Sys2Proof.Machine
end

