-- ==== Sys2Proof/Laws/Ops.lean ====
section
/-! SUPPORT. What each shared operation can do, said once: how outcomes are chained, the clear, the store, the entry into a
dispatch. -/

namespace Sys2Proof.Machine

variable {P : Params} {C : Type}

@[simp] theorem andThen_next (s : State P C) (k : State P C → Result P C) :
    andThen (.next s) k = k s := rfl

@[simp] theorem andThen_fault (f : Fault) (k : State P C → Result P C) :
    andThen (.fault f) k = .fault f := rfl

@[simp] theorem andThen_refused (r : Refusal) (k : State P C → Result P C) :
    andThen (.refused r) k = .refused r := rfl

@[simp] theorem orFault_ok {α : Type} (a : α) (k : α → Result P C) : orFault (.ok a) k = k a := rfl

@[simp] theorem orFault_error {α : Type} (f : Fault) (k : α → Result P C) :
    orFault (.error f) k = .fault f := rfl

/-- Two operations in a row end in a next state exactly when both do. -/
theorem andThen_eq_next {o : Result P C} {k : State P C → Result P C} {t : State P C} :
    andThen o k = .next t ↔ ∃ s, o = .next s ∧ k s = .next t := by
  cases o <;> simp

/-- An access and then an operation end in a next state exactly when both succeed. -/
theorem orFault_eq_next {α : Type} {e : Except Fault α} {k : α → Result P C} {t : State P C} :
    orFault e k = .next t ↔ ∃ a, e = .ok a ∧ k a = .next t := by
  cases e <;> simp

theorem inLive_of_live {s : State P C} (h : s.phase = .live) (o : Result P C) : inLive s o = o := by
  simp [inLive, h]

/-- An operation of the phase Live ends in a next state only in that phase. -/
theorem inLive_eq_next {s t : State P C} {o : Result P C} :
    inLive s o = .next t ↔ s.phase = .live ∧ o = .next t := by
  cases h : s.phase <;> simp [inLive, h]

/-- The clear completes when its cells exist: cells below CURSOR read 0x00, the others are kept. -/
theorem clearBuffer_spec {s : State P C} (hw : s.mem.wf P.maxPacketLen) (hc : s.cursor.toNat ≤ P.maxPacketLen) :
    ∃ m, s.clearBuffer = .next (s.setMem m) ∧ Memory.wf P.maxPacketLen m ∧
      ∀ a, Memory.cellAt m a = if a < s.cursor.toNat then 0 else s.mem.cellAt a := by
  have h := Memory.clearBelow_spec hw s.cursor.toNat
  rw [if_pos hc] at h
  obtain ⟨m, e, h⟩ := h
  exact ⟨m, by simp [State.clearBuffer, e], h⟩

/-- The clear changes nothing but BUF. -/
theorem clearBuffer_cases {s t : State P C} (h : s.clearBuffer = .next t) :
    ∃ m, s.mem.clearBelow P.maxPacketLen s.cursor.toNat = .ok m ∧ t = s.setMem m := by
  obtain ⟨m, e, h⟩ := orFault_eq_next.mp h
  exact ⟨m, e, by simpa using h.symm⟩

/-- The store, when there is room: cell CURSOR and CURSOR. -/
theorem storeByte_spec {s : State P C} (h : s.hasRoom = true) (v : Byte) :
    s.storeByte v = .next ((s.setMem (s.mem.update s.storeIndex v)).setCursor (s.cursor + 1)) := by
  have : s.storeIndex < P.maxPacketLen := by simpa [State.hasRoom, State.storeIndex] using h
  simp [State.storeByte, Memory.write, this]

/-- Entering a dispatch, when the cells exist: one event, with CTX, CURSOR and the cells below it. -/
theorem enterDispatch_spec {s : State P C} (h : s.cursor.toNat ≤ P.maxPacketLen) :
    s.enterDispatch =
      .next (s.emit { ctx := s.ctx, len := s.cursor, data := (List.range s.cursor.toNat).map s.mem.cellAt }) := by
  have e := Memory.readBelow_spec (cap := P.maxPacketLen) s.mem s.cursor.toNat
  rw [if_pos h] at e
  simp [State.enterDispatch, e]

/-- Everything entering a dispatch can do when it ends in a next state. -/
theorem enterDispatch_cases {s t : State P C} (h : s.enterDispatch = .next t) :
    s.cursor.toNat ≤ P.maxPacketLen ∧
      t = s.emit { ctx := s.ctx, len := s.cursor, data := (List.range s.cursor.toNat).map s.mem.cellAt } := by
  by_cases hc : s.cursor.toNat ≤ P.maxPacketLen
  · rw [enterDispatch_spec hc] at h
    exact ⟨hc, by simpa using h.symm⟩
  · have e := Memory.readBelow_spec (cap := P.maxPacketLen) s.mem s.cursor.toNat
    rw [if_neg hc] at e
    obtain ⟨f, e⟩ := e
    simp [State.enterDispatch, e] at h

end Sys2Proof.Machine
end

