-- ==== Sys2Proof/Laws/Parameters.lean ====
section
/-! SUPPORT. What a legal parameter set gives (R8): one lemma for each constraint. -/

namespace Sys2Proof

/-- A legal set passes all four tests. -/
theorem Params.legal_iff {p : Params} :
    p.legal = true ↔
      p.markers.Nodup ∧ 1 ≤ p.maxPacketLen ∧ (∀ m ∈ p.markers, m &&& p.escMask = 0) ∧
      ∀ m ∈ p.markers, p.isMarker (m ||| p.escMask) = false := by
  unfold legal check
  grind

/-- The markers of a legal set are pairwise different. -/
theorem Params.markers_distinct (p : Params) (h : p.legal = true) :
    p.startByte ≠ p.endByte ∧ p.startByte ≠ p.escByte ∧ p.endByte ≠ p.escByte := by
  have h := (legal_iff.mp h).1
  simp only [markers, List.nodup_cons, List.mem_cons, List.not_mem_nil, or_false, not_or] at h
  exact ⟨h.1.1, h.1.2, h.2.1⟩

/-- A marker value is one of the three. -/
theorem Params.isMarker_eq_true {p : Params} {b : Byte} :
    p.isMarker b = true ↔ b = p.startByte ∨ b = p.endByte ∨ b = p.escByte := by
  simp [isMarker, markers]

end Sys2Proof
end

