-- ==== Sys2Proof/Laws/PerInstr.lean ====
section
/-! SUPPORT. Two facts about every instruction as syntax: it is one byte of the stream (R50), and the byte of a well-formed
instruction has the instruction's class (R52). -/

namespace Sys2Proof.Laws.OneByte

/-- Decoding takes exactly the one byte of the instruction and leaves the stream behind it, whatever the parameters. -/
def Statement (i : Sys2Proof.Instr) : Prop :=
  ∀ (p : Sys2Proof.Params) rest, ∃ j, Sys2Proof.decode p (Sys2Proof.encode p i ++ rest) = .ok (j, rest)

theorem startMarker : Statement .startMarker := fun _ _ => ⟨_, rfl⟩
theorem endMarker : Statement .endMarker := fun _ _ => ⟨_, rfl⟩
theorem escMarker : Statement .escMarker := fun _ _ => ⟨_, rfl⟩
theorem data (b : Sys2Proof.Byte) : Statement (.data b) := fun _ _ => ⟨_, rfl⟩

end Sys2Proof.Laws.OneByte

namespace Sys2Proof.Laws.EncodedClass

/-- The byte of a well-formed instruction is classified as the instruction's class, for every legal parameter set. -/
def Statement (i : Sys2Proof.Instr) : Prop :=
  ∀ p : Sys2Proof.Params, p.legal = true → i.wellFormed p = true →
    Sys2Proof.classify p (Sys2Proof.encodeByte p i) = i.byteClass

theorem startMarker : Statement .startMarker := fun p _ _ => by
  simp [Sys2Proof.classify, Sys2Proof.encodeByte, Sys2Proof.Instr.byteClass]
theorem endMarker : Statement .endMarker := fun p hp _ => by
  have := p.markers_distinct hp
  simp [Sys2Proof.classify, Sys2Proof.encodeByte, Sys2Proof.Instr.byteClass, this.1.symm]
theorem escMarker : Statement .escMarker := fun p hp _ => by
  have := p.markers_distinct hp
  simp [Sys2Proof.classify, Sys2Proof.encodeByte, Sys2Proof.Instr.byteClass, this.2.1.symm, this.2.2.symm]
theorem data (b : Sys2Proof.Byte) : Statement (.data b) := fun p _ h => by
  simp only [Sys2Proof.Instr.wellFormed, Bool.and_eq_true, bne_iff_ne] at h
  simp [Sys2Proof.classify, Sys2Proof.encodeByte, Sys2Proof.Instr.byteClass, h]

end Sys2Proof.Laws.EncodedClass
end

