-- ==== Sys2Proof/Laws/Step.lean ====
section
/-! SUPPORT. The inversion lemmas: everything an instruction, an edge, an input and a step can do when it ends in a next
state. Every invariant is proved from these, without unfolding the step again. -/

namespace Sys2Proof.Machine

variable {P : Params} {C : Type} {W : Nat}

/-- What an instruction can do from `s` to `t`: one constructor for each way it ends in a next state. -/
inductive ExecCase (s t : State P C) : Instr → Prop where
  /-- START (R67) -/
  | start (m : Memory) : s.mem.clearBelow P.maxPacketLen s.cursor.toNat = .ok m →
      t = { s with mem := m, cursor := 0, inPacket := true } → ExecCase s t .startMarker
  /-- END that dispatches (R74, R75) -/
  | dispatch : s.mayDispatch = true → s.cursor.toNat ≤ P.maxPacketLen →
      t = { s with
        inPacket := false
        events := s.events ++ [{ ctx := s.ctx, len := s.cursor, data := (List.range s.cursor.toNat).map s.mem.cellAt }] } →
      ExecCase s t .endMarker
  /-- END that does not (R77 to R80) -/
  | noDispatch : s.mayDispatch = false → t = { s with inPacket := false } → ExecCase s t .endMarker
  /-- ESC (R82) -/
  | esc : t = { s with pendingUnescape := true } → ExecCase s t .escMarker
  /-- DATA outside a packet (R90) -/
  | idle (b : Byte) : s.inPacket = false → t = s → ExecCase s t (.data b)
  /-- DATA that is stored (R91, R92) -/
  | store (b : Byte) : s.inPacket = true → s.hasRoom = true →
      t = { s with
        mem := s.mem.update s.cursor.toNat (dataOperand P s.pendingUnescape b)
        cursor := s.cursor + 1
        pendingUnescape := false } → ExecCase s t (.data b)
  /-- DATA that aborts the packet (R95, R96) -/
  | abort (b : Byte) : s.inPacket = true → s.hasRoom = false →
      t = { s with inPacket := false, pendingUnescape := false } → ExecCase s t (.data b)

/-- An instruction ends in a next state only in phase Live, and in one of these ways. -/
theorem execFor_cases {i : Instr} {s t : State P C} (h : execFor i s = .next t) : s.phase = .live ∧ ExecCase s t i := by
  cases i with
  | startMarker =>
    obtain ⟨hp, h⟩ := inLive_eq_next.mp h
    obtain ⟨u, hu, h⟩ := andThen_eq_next.mp h
    obtain ⟨m, e, rfl⟩ := clearBuffer_cases hu
    cases h
    exact ⟨hp, .start m e rfl⟩
  | endMarker =>
    obtain ⟨hp, h⟩ := inLive_eq_next.mp h
    obtain ⟨u, hu, h⟩ := andThen_eq_next.mp h
    cases h
    split at hu
    · obtain ⟨hc, rfl⟩ := enterDispatch_cases hu
      exact ⟨hp, .dispatch ‹_› hc rfl⟩
    · cases hu
      exact ⟨hp, .noDispatch (Bool.eq_false_of_not_eq_true ‹¬ s.mayDispatch = true›) rfl⟩
  | escMarker =>
    obtain ⟨hp, h⟩ := inLive_eq_next.mp h
    cases h
    exact ⟨hp, .esc rfl⟩
  | data b =>
    obtain ⟨hp, h⟩ := inLive_eq_next.mp h
    split at h
    · split at h
      · have room : (s.setPendingUnescape false).hasRoom = true := ‹s.hasRoom = true›
        rw [storeByte_spec room] at h
        cases h
        exact ⟨hp, .store b ‹_› ‹_› rfl⟩
      · cases h
        exact ⟨hp, .abort b ‹_› (by simpa using ‹¬ s.hasRoom = true›) rfl⟩
    · cases h
      exact ⟨hp, .idle b (by simpa using ‹¬ s.inPacket = true›) rfl⟩

/-- Everything a rising edge can do (R135): reset, nothing, the end of a dispatch, an input transfer. -/
theorem edge_cases {p : Pins P} {s t : State P (BitVec W)} (h : edge p s = .next t) :
    (p.rst = true ∧ t = s.construct s.hasSink s.ctx) ∨
    (p.rst = false ∧ t = s ∧
      (s.phase = .live → s.dispatchPending = true ∧ p.pktReady = false ∨ s.dispatchPending = false ∧ p.inValid = false)) ∨
    (p.rst = false ∧ s.phase = .live ∧ s.dispatchPending = true ∧ p.pktReady = true ∧
      t = s.leaveDispatch (portDispatch s)) ∨
    (p.rst = false ∧ s.phase = .live ∧ s.dispatchPending = false ∧ p.inValid = true ∧
      ∃ u, execFor (decodeByte P p.inData) s = .next u ∧
        t = (u.accept p.inData).setDispatchPending (!(emitted s u).isEmpty)) := by
  unfold edge liveEdge at h
  cases hr : p.rst
  · simp only [hr, Bool.false_eq_true, if_false] at h
    cases hp : s.phase
    · cases hv : p.inValid <;> simp_all
    · cases hd : s.dispatchPending
      · cases hv : p.inValid
        · simp_all
        · simp only [hp, hd, hv, transfer, andThen_eq_next, if_true, Bool.false_eq_true, if_false] at h
          obtain ⟨u, hu, h⟩ := h
          cases h
          simp_all
      · cases hv : p.pktReady <;> simp_all
    · cases hv : p.inValid <;> simp_all
  · simp_all

/-- Everything one thing the environment does can lead to. -/
theorem takeInput_cases {x : Input P (BitVec W)} {s t : State P (BitVec W)} (h : takeInput x s = .next t) :
    (∃ hasSink ctx, x = .create hasSink ctx ∧ s.phase = .unconstructed ∧ t = s.construct hasSink ctx) ∨
    (x = .feed [] ∧ s.phase = .live ∧ s.dispatchPending = false ∧ t = s) ∨
    (∃ b bs u, x = .feed (b :: bs) ∧ s.phase = .live ∧ s.dispatchPending = false ∧
      execFor (decodeByte P b) (s.setInputs (.feed bs :: s.inputs)) = .next u ∧
      t = (u.accept b).complete (emitted s u)) ∨
    (x = .destroy ∧ s.phase = .live ∧ s.dispatchPending = false ∧ t = s.setPhase .destroyed) ∨
    (∃ p u, x = .edge p ∧ edge p s = .next u ∧ t = u.tick) := by
  cases x with
  | create hasSink ctx =>
    cases hp : s.phase <;> simp_all [takeInput, create]
  | feed chunk =>
    obtain ⟨hp, h⟩ := inLive_eq_next.mp h
    cases hd : s.dispatchPending
    · cases chunk with
      | nil => simp_all
      | cons b bs =>
        simp only [hd, Bool.false_eq_true, if_false, feedByte, andThen_eq_next] at h
        obtain ⟨u, hu, h⟩ := h
        cases h
        exact .inr (.inr (.inl ⟨b, bs, u, rfl, hp, rfl, hu, rfl⟩))
    · simp [hd] at h
  | destroy =>
    obtain ⟨hp, h⟩ := inLive_eq_next.mp h
    cases hd : s.dispatchPending <;> simp_all
  | edge p =>
    obtain ⟨u, hu, h⟩ := andThen_eq_next.mp h
    cases h
    exact .inr (.inr (.inr (.inr ⟨p, u, rfl, hu, rfl⟩)))

/-- A step does nothing without an input, and otherwise takes the first one. -/
theorem stepFor_cases {s t : State P (BitVec W)} (h : stepFor s = .next t) :
    (s.inputs = [] ∧ t = s) ∨ ∃ x rest, s.inputs = x :: rest ∧ takeInput x (s.setInputs rest) = .next t := by
  unfold stepFor at h
  split at h
  · exact .inl ⟨‹_›, by cases h; rfl⟩
  · exact .inr ⟨_, _, ‹_›, h⟩

/-- The effect of an instruction at the default parameters is the general one. -/
theorem exec_eq_execFor (i : Instr) (s : State) : exec i s = execFor i s := by cases i <;> rfl

theorem step_eq_stepFor (s : State) : step s = stepFor s := rfl

/-- An instruction ends in a next state only in phase Live, and in one of these ways. -/
theorem exec_cases {i : Instr} {s t : State} (h : exec i s = .next t) : s.phase = .live ∧ ExecCase s t i :=
  execFor_cases (exec_eq_execFor i s ▸ h)

/-- A step does nothing without an input, and otherwise takes the first one. -/
theorem step_cases {s t : State} (h : step s = .next t) :
    (s.inputs = [] ∧ t = s) ∨ ∃ x rest, s.inputs = x :: rest ∧ takeInput x (s.setInputs rest) = .next t :=
  stepFor_cases h

/-- A run whose first step has a next state goes on from it. -/
theorem core_run_next {s t : State} (h : step s = .next t) (k : Nat) :
    Sys2Proof.core.run (k + 1) s = Sys2Proof.core.run k t := by
  have h : Sys2Proof.core.step s = .next t := h
  simp only [Host.Core.run, h]

end Sys2Proof.Machine
end

