-- ==== Sys2Proof/Tests/Slice0.lean ====
section
/-! SUPPORT. Tests from the spec's own words, opcode map and vectors (95_test_vectors), and a witness for every statement
that has hypotheses. -/

namespace Sys2Proof.Tests

open Sys2Proof.Machine

/-- A live decoder with the two flags and these bytes (none of them 0x00) below CURSOR, as the vectors write it. -/
def st (inPacket pendingUnescape : Bool) (bytes : List Byte) : State :=
  { State.reset with
    mem := (List.range bytes.length).zip bytes, cursor := BitVec.ofNat _ bytes.length, inPacket := inPacket
    pendingUnescape := pendingUnescape }

/-- 512 bytes 0x55. -/
def full : List Byte := List.replicate 512 0x55

/-- The length and the bytes of a dispatch; the context is uninterpreted in the default machine. -/
def lenData {P : Params} {C : Type} (d : Dispatch P C) : Nat × List Byte := (d.len.toNat, d.data)

/-- What a vector of 95_test_vectors shows: the two flags, CURSOR, the cells, the events. -/
structure Shown where
  inPacket : Bool
  pendingUnescape : Bool
  cursor : Nat
  mem : List Host.Cell
  events : List (Nat × List Byte)
  deriving DecidableEq, Repr

/-- The part of the next state a vector shows. -/
def shown (o : Host.Outcome State Fault Refusal) : Option Shown :=
  (nextState o).map fun t => ⟨t.inPacket, t.pendingUnescape, t.cursor.toNat, t.mem, t.events.map lenData⟩

/-- Such a decoder meets the invariant. -/
theorem st_inv (inPacket pendingUnescape : Bool) {bytes : List Byte} (hl : bytes.length ≤ 512) (h0 : ∀ b ∈ bytes, b ≠ 0) :
    Inv (st inPacket pendingUnescape bytes) := by
  have hc : (BitVec.ofNat Config.params.cursorW bytes.length).toNat = bytes.length :=
    Params.toNat_ofNat_cursor hl
  have hm : ∀ c ∈ (List.range bytes.length).zip bytes, c.1 < bytes.length ∧ c.2 ∈ bytes := fun c h =>
    ⟨List.mem_range.mp (List.of_mem_zip h).1, (List.of_mem_zip h).2⟩
  refine ⟨⟨List.pairwise_map.mp ?_, fun c h => ⟨Nat.lt_of_lt_of_le (hm c h).1 hl, h0 _ (hm c h).2⟩⟩, fun _ => ⟨?_, ?_, ?_⟩⟩
  · have : (st inPacket pendingUnescape bytes).mem.map Prod.fst = List.range bytes.length := List.map_fst_zip (by simp)
    rw [this]
    exact List.pairwise_lt_range
  · exact Nat.le_trans (Nat.le_of_eq hc) hl
  · exact fun c h => Nat.lt_of_lt_of_eq (hm c h).1 hc.symm
  · exact fun h => nomatch h

theorem full_inv (inPacket pendingUnescape : Bool) : Inv (st inPacket pendingUnescape full) :=
  st_inv _ _ (by decide +kernel) (by decide +kernel)

/-- 511 bytes 0x55. -/
def nearlyFull : List Byte := List.replicate 511 0x55

theorem nearlyFull_inv (inPacket pendingUnescape : Bool) : Inv (st inPacket pendingUnescape nearlyFull) :=
  st_inv _ _ (by decide +kernel) (by decide +kernel)

/-- Another legal parameter set: other markers, another mask, three cells. -/
def small : Params := { startByte := 0x40, endByte := 0x41, escByte := 0x42, escMask := 0x80, maxPacketLen := 3 }

/-- A decoder of it, with an 8-bit context, that was fed START, 01, 02, with END to come. -/
def smallOpened : State small (BitVec 8) :=
  { State.initial true 7 with
    mem := [(0, 0x01), (1, 0x02)], cursor := 2, inPacket := true, accepted := [0x40, 0x01, 0x02]
    inputs := [.edge ⟨false, true, 0x41, false, 0⟩] }

/-! ## Well-formedness and parameters -/

theorem test_illformed_start : (Instr.data 0x02).wellFormed Config.params = false := by decide
theorem test_illformed_end : (Instr.data 0x03).wellFormed Config.params = false := by decide
theorem test_illformed_esc : (Instr.data 0x10).wellFormed Config.params = false := by decide
theorem test_wellformed_data : (Instr.data 0x20).wellFormed Config.params = true := by decide

theorem test_params_defaults : Config.params.check = none := by decide
theorem test_params_same_marker :
    { Config.params with endByte := 0x02 }.check = some .markersNotDistinct := by decide
theorem test_params_no_capacity : { Config.params with maxPacketLen := 0 }.check = some .noCapacity := by decide
theorem test_params_marker_in_mask :
    { Config.params with startByte := 0x22 }.check = some .markerHasMaskBits := by decide
theorem test_params_escaped_marker :
    { Config.params with escMask := 0x00 }.check = some .escapedMarkerIsMarker := by decide

/-- C11: for 500 both widths are 9 -/
theorem test_widths_c11 :
    { Config.params with maxPacketLen := 500 }.cursorW = 9 ∧ { Config.params with maxPacketLen := 500 }.raddrW = 9 := by
  decide

/-! ## Decoding: words of the table of R54, written bit by bit -/

theorem test_decode_start : decodeByte Config.params 0b00000010 = .startMarker := by decide
theorem test_decode_end : decodeByte Config.params 0b00000011 = .endMarker := by decide
theorem test_decode_esc : decodeByte Config.params 0b00010000 = .escMarker := by decide
theorem test_decode_data : decodeByte Config.params 0b01000001 = .data 0x41 := by decide
theorem test_decode_mask_is_data : decodeByte Config.params 0b00100000 = .data 0x20 := by decide
theorem test_decode_next_to_esc : decodeByte Config.params 0b00010001 = .data 0x11 := by decide
theorem test_decode_rest : decode Config.params [0x02, 0x41] = .ok (.startMarker, [0x41]) := rfl
theorem test_decode_empty : decode Config.params [] = .error .endOfStream := rfl
theorem test_decode_table_word : decodeTableWord 8 0x10 = some .escMarker := by decide
theorem test_encode_escaped : encodeAll Config.params (pkt Config.params [0x48, 0x02, 0x49]) = [0x02, 0x48, 0x10, 0x22, 0x49, 0x03] := by decide

/-! ## Single steps: rows T of 95_test_vectors, section 2 -/

/-- T13, with its anomalies -/
theorem test_start_t13 :
    shown (exec .startMarker (st true true [0x41, 0x42])) = some ⟨true, true, 0, [], []⟩ ∧
      anomalies .startMarker (st true true [0x41, 0x42]) = [.an1, .an7] := by decide

/-- T23: all 512 cells are cleared -/
theorem test_start_t23 : shown (exec .startMarker (st true false full)) = some ⟨true, false, 0, [], []⟩ := by
  decide +kernel

/-- T14 -/
theorem test_end_t14 :
    shown (exec .endMarker (st true true [0x41, 0x42])) =
      some ⟨false, true, 2, [(0, 0x41), (1, 0x42)], [(2, [0x41, 0x42])]⟩ := by decide

/-- T14 with an 8-bit context: the context given is the one handed on -/
theorem test_end_t14_context :
    (nextState (execFor .endMarker ({ State.initial true 7 with
        mem := [(0, 0x41), (1, 0x42)], cursor := 2, inPacket := true } : State Config.params (BitVec 8)))).map State.events =
      some [⟨7, 2, [0x41, 0x42]⟩] := by decide

/-- T24: no sink -/
theorem test_end_t24 :
    shown (exec .endMarker { st true false [0x41, 0x42] with hasSink := false }) =
      some ⟨false, false, 2, [(0, 0x41), (1, 0x42)], []⟩ := by decide

/-- T7, with its anomalies -/
theorem test_esc_t7 :
    shown (exec .escMarker (st false true [0x41, 0x42])) = some ⟨false, true, 2, [(0, 0x41), (1, 0x42)], []⟩ ∧
      anomalies .escMarker (st false true [0x41, 0x42]) = [.an7, .an8] := by decide

/-- T22: ESC never aborts -/
theorem test_esc_t22 :
    (nextState (exec .escMarker (st true false full))).map (fun t => (t.inPacket, t.pendingUnescape, t.cursor)) =
      some (true, true, 512) := by decide +kernel

/-- T16: the byte loses bit 5 -/
theorem test_data_t16 :
    shown (exec (.data 0x61) (st true true [0x41, 0x42])) =
      some ⟨true, false, 3, [(0, 0x41), (1, 0x42), (2, 0x41)], []⟩ ∧
      anomalies (.data 0x61) (st true true [0x41, 0x42]) = [.an9] := by decide

/-- T20: a full buffer with a pending escape -/
theorem test_data_t20 :
    (nextState (exec (.data 0x61) (st true true full))).map
      (fun t => (t.inPacket, t.pendingUnescape, t.cursor, t.events.length)) = some (false, false, 512, 0) := by
  decide +kernel

/-! ## Host operations and ports -/

/-- V37: DESTROY does not flush the packet in progress -/
theorem test_destroy_v37 :
    (nextState (step { st true false [0x41] with inputs := [.destroy] })).map (fun t => (t.phase, t.events.map lenData)) =
      some (.destroyed, []) := by decide

/-- V38: FEED after DESTROY -/
theorem test_feed_v38 :
    step { State.reset with phase := .destroyed, inputs := [.feed [0x02]] } = .refused .afterDestroy := rfl

/-- V2 and V12: streams from reset -/
theorem test_stream_v12 : StreamGives [0x10, 0x02, 0x61, 0x03] [[0x41]] false false 1 :=
  ⟨_, rfl, rfl, rfl, rfl, rfl⟩

/-- the rules in the parameters' names, for another set: an escaped END byte is payload, a fourth byte aborts -/
theorem test_stream_small :
    (nextState (feedBytes [0x40, 0x42, 0xC1, 0x02, 0x41, 0x40, 0x01, 0x02, 0x03, 0x04, 0x41]
      (State.initial true 7 : State small (BitVec 8)))).map State.events = some [⟨7, 2, [0x41, 0x02]⟩] := by decide

/-- PV1, cycle 4: END at the ports dispatches -/
theorem test_edge_pv1_cycle4 :
    (nextState (step { st true false [0x41] with inputs := [.edge ⟨false, true, 0x03, false, 0⟩] })).map
      (fun t => (t.inPacket, t.dispatchPending, (outputs t 0).pktRdata, (outputs t 1).pktRdata, (outputs t 0).pktLen)) =
      some (false, true, 0x41, 0x00, 1) := by decide

/-- PV1, cycle 6: the dispatch ends and no byte is taken -/
theorem test_edge_pv1_cycle6 :
    (nextState (step { st false false [0x41] with
      dispatchPending := true, inputs := [.edge ⟨false, true, 0x42, true, 1⟩] })).map
      (fun t => (t.dispatchPending, t.completed.map lenData, t.accepted)) = some (false, [(1, [0x41])], []) ∧
    (cycleOutputs ⟨false, true, 0x42, true, 1⟩ { st false false [0x41] with dispatchPending := true }).pktRdata = 0x00 := by
  decide

/-- PV2, cycle 6: reset wins -/
theorem test_edge_pv2_cycle6 :
    (nextState (step { st false false [0x41] with
      dispatchPending := true, inputs := [.edge ⟨true, true, 0x42, true, 0⟩] })).map
      (fun t => (t.dispatchPending, t.cursor, t.mem.length, t.completed.length)) = some (false, 0, 0, 0) := by decide

/-- A START with CURSOR beyond the buffer, which no run reaches, faults. -/
theorem faults_beyond_capacity {s : State} (hp : s.phase = .live) (hc : s.cursor = 513) (hw : BufWf s) :
    ∃ f, exec .startMarker s = .fault f := by
  obtain ⟨f, e⟩ : ∃ f, s.mem.clearBelow Config.maxPacketLen s.cursor.toNat = .error f := by
    have h := Memory.clearBelow_spec hw s.cursor.toNat
    rwa [if_neg (by rw [hc]; decide)] at h
  exact ⟨f, by simp [exec, execStart, inLive_of_live hp, State.clearBuffer, e]⟩

/-! ## Witnesses: for every statement with hypotheses, a state and operands that meet them together -/

/-- A decoder before CREATE whose other state is not zero. -/
def before : State := { st true true [0x41] with phase := .unconstructed }

/-- A destroyed decoder. -/
def after : State := { st true true [0x41] with phase := .destroyed }

/-- A decoder in a dispatch. -/
def busy : State := { st false true [0x41] with dispatchPending := true }

/-- The pins of an edge that offers a byte. -/
def offer (b : Byte) : Pins := ⟨false, true, b, false, 0⟩

/-- The pins of a reset edge. -/
def resetPins : Pins := ⟨true, true, 0x42, true, 0⟩

theorem witness_ParameterSetsAreChecked :
    Config.params.legal = true ∧ { Config.params with maxPacketLen := 0 }.legal = false := by decide

theorem witness_ClassificationByValue :
    Config.params.legal = true ∧ classify Config.params 0x02 = .startMarker ∧ classify Config.params 0x03 = .endMarker ∧
      classify Config.params 0x10 = .escMarker ∧ classify Config.params 0x04 = .data := by decide

theorem witness_StreamRoundTrip :
    Config.params.legal = true ∧ ∀ i ∈ [Instr.startMarker, .data 0x04, .escMarker, .data 0xFF, .endMarker], i.wellFormed Config.params = true := by decide

theorem witness_EscapedMarkersRoundTrip : Config.params.legal = true ∧ (0x10 : Byte) ∈ Config.params.markers := by decide

/-- CREATE, and a reset in every phase -/
theorem witness_ConstructionAndResetValues :
    (before.phase = .unconstructed ∧
      (before.setInputs [.create false Config.ctx]).inputs = .create false Config.ctx :: []) ∧
    (∀ s ∈ [busy, before, after],
      (s.setInputs [.edge resetPins]).inputs = .edge resetPins :: [] ∧ resetPins.rst = true) :=
  ⟨⟨rfl, rfl⟩, by decide⟩

theorem witness_DestroyEmitsNothing :
    let s := (st true true [0x41]).setInputs [.destroy]
    s.phase = .live ∧ s.dispatchPending = false ∧ s.inputs = .destroy :: [] := by decide

/-- one state for each clause, in both phases -/
theorem witness_UseOutsideLifeIsRefused :
    (∀ x ∈ [Input.feed [0x02], .feed [], .destroy, .edge (offer 0x02)],
      (before.setInputs [x]).phase = .unconstructed ∧ (before.setInputs [x]).inputs = [x] ∧
      (after.setInputs [x]).phase = .destroyed ∧ (after.setInputs [x]).inputs = [x]) ∧
    (offer 0x02).rst = false ∧ (offer 0x02).inValid = true := by decide

theorem witness_ReentrantUseIsRefused :
    ∀ x ∈ [Input.feed [0x02], .destroy],
      (busy.setInputs [x]).phase = .live ∧ (busy.setInputs [x]).dispatchPending = true ∧
      (busy.setInputs [x]).inputs = [x] := by decide

/-- CREATE, DESTROY and the ports' reset -/
theorem witness_LifecycleMoves :
    (nextState (step (before.setInputs [.create true Config.ctx]))).map State.phase = some .live ∧
    (nextState (step (before.setInputs [.edge resetPins]))).map State.phase = some .live ∧
    (nextState (step (after.setInputs [.edge resetPins]))).map State.phase = some .live ∧
    (nextState (step ((st true true []).setInputs [.destroy]))).map State.phase = some .destroyed := by decide

/-- the ends of CURSOR's range; also for StartIsIdempotent, EndKeepsPacketAndFlag -/
theorem witness_StartOpensPacket :
    (let s := st true false []
     s.phase = .live ∧ BufWf s ∧ s.cursor.toNat ≤ Config.maxPacketLen) ∧
    (let s := st true false full
     s.phase = .live ∧ BufWf s ∧ s.cursor.toNat ≤ Config.maxPacketLen) :=
  ⟨by decide, rfl, (full_inv true false).1, by decide +kernel⟩

theorem witness_StartForgetsHistory :
    let s := st true true [0x41]
    let u := st false true [0x42, 0x43]
    s.phase = .live ∧ u.phase = .live ∧ Inv s ∧ Inv u ∧ s.hasSink = u.hasSink ∧ s.ctx = u.ctx ∧
      s.pendingUnescape = u.pendingUnescape :=
  ⟨rfl, rfl, by decide, by decide, rfl, rfl, rfl⟩

theorem witness_SecondStartDiscards :
    let s := st true false [0x41]
    s.phase = .live ∧ BufWf s ∧ s.cursor.toNat ≤ Config.maxPacketLen ∧ s.inPacket = true ∧
      s.pendingUnescape = false ∧ s.hasSink = true ∧ Config.params.isMarker 0x43 = false := by decide

/-- the dispatching clause at both ends of the length, and the three ways the condition fails -/
theorem witness_EndDispatchesOnCondition :
    (∀ s ∈ [st true false [0x41], st true false full],
      s.phase = .live ∧ s.cursor.toNat ≤ Config.maxPacketLen ∧
        (s.inPacket = true ∧ 0 < s.cursor.toNat ∧ s.hasSink = true)) ∧
    (∀ s ∈ [st false false [0x41], st true false [], { st true false [0x41] with hasSink := false }],
      s.phase = .live ∧ s.cursor.toNat ≤ Config.maxPacketLen ∧
        ¬ (s.inPacket = true ∧ 0 < s.cursor.toNat ∧ s.hasSink = true)) := by decide +kernel

theorem witness_EndKeepsPacketAndFlag :
    (st true true full).phase = .live ∧ (st true true full).cursor.toNat ≤ Config.maxPacketLen := by decide +kernel

theorem witness_EmptyPacketIsNotDispatched :
    ((st true true []).phase = .live ∧ (st true true []).cursor = 0) ∧
      ∃ t d, exec .endMarker (st true true [0x41]) = .next t ∧ d ∈ t.events :=
  ⟨by decide, _, _, rfl, List.mem_singleton.mpr rfl⟩

theorem witness_StartIsIdempotent :
    (st true true [0x41]).phase = .live ∧ BufWf (st true true [0x41]) ∧
      (st true true [0x41]).cursor.toNat ≤ Config.maxPacketLen := by decide

/-- also for the second clause of EscIsIdempotent -/
theorem witness_EscSetsOnlyItsFlag :
    ∀ s ∈ [st false false [], st true true full], s.phase = .live := by decide +kernel

theorem witness_EscIsIdempotent :
    (st false true []).phase = .live ∧ (st false true []).pendingUnescape = true := by decide

theorem witness_MarkersKeepPendingEscape :
    let s := st true true [0x41]
    s.phase = .live ∧ BufWf s ∧ s.cursor.toNat ≤ Config.maxPacketLen ∧ s.pendingUnescape = true := by decide

/-- a step that clears the flag and one that does not -/
theorem witness_PendingEscapeClearedInTwoWays :
    let s := (st true true []).setInputs [.feed [0x61]]
    let u := (st true true []).setInputs [.edge (offer 0x03)]
    s.phase = .live ∧ s.pendingUnescape = true ∧ (nextState (step s)).map State.pendingUnescape = some false ∧
      u.phase = .live ∧ u.pendingUnescape = true ∧ (nextState (step u)).map State.pendingUnescape = some true := by
  decide

theorem witness_IdleDataIsDropped :
    (st false true full).phase = .live ∧ (st false true full).inPacket = false := by decide +kernel

/-- CURSOR at 0 and at 511, with and without a pending escape -/
theorem witness_DataIsStored :
    (let s := st true true []
     s.phase = .live ∧ BufWf s ∧ s.inPacket = true ∧ s.cursor.toNat < Config.maxPacketLen) ∧
    (let s := st true false nearlyFull
     s.phase = .live ∧ BufWf s ∧ s.inPacket = true ∧ s.cursor.toNat < Config.maxPacketLen) :=
  ⟨by decide, rfl, (nearlyFull_inv true false).1, rfl, by decide +kernel⟩

theorem witness_OverflowAborts :
    let s := st true true full
    s.phase = .live ∧ s.inPacket = true ∧ Config.maxPacketLen ≤ s.cursor.toNat := by decide +kernel

theorem witness_ExactFillAndOverflowStreams : Config.params.isMarker 0x55 = false := by decide

/-- the other clause: three cells, two of them used -/
theorem witness_ExactFillStaysOpen_small :
    small.legal = true ∧ smallOpened.phase = .live ∧ BufWf smallOpened ∧ smallOpened.inPacket = true ∧
      smallOpened.hasSink = true ∧ smallOpened.cursor.toNat = small.maxPacketLen - 1 := by decide

theorem witness_ExactFillStaysOpen :
    let s := st true true nearlyFull
    s.phase = .live ∧ BufWf s ∧ s.inPacket = true ∧ s.hasSink = true ∧ s.cursor.toNat = Config.maxPacketLen - 1 :=
  ⟨rfl, (nearlyFull_inv true true).1, rfl, rfl, by decide +kernel⟩

theorem witness_MarkerStoredOnlyByUnescape :
    (Instr.data 0x30).wellFormed Config.params = true ∧ Config.params.isMarker (dataOperand Config.params true 0x30) = true := by
  decide

theorem witness_IdleIgnoresUntilStart :
    Config.params.legal = true ∧ (st false false [0x41]).phase = .live ∧ (st false false [0x41]).inPacket = false ∧
      Config.params.startByte ∉ ([0x41, 0x10, 0x03] : List Byte) := by decide

theorem witness_StartFrame :
    BufWf (st true true [0x41]) ∧ ∃ t, exec .startMarker (st true true [0x41]) = .next t := ⟨by decide, _, rfl⟩

/-- a byte that is stored and one that is dropped -/
theorem witness_DataFrame :
    (BufWf (st true true [0x41]) ∧ ∃ t, exec (.data 0x61) (st true true [0x41]) = .next t) ∧
      (BufWf (st false true [0x41]) ∧ ∃ t, exec (.data 0x61) (st false true [0x41]) = .next t) :=
  ⟨⟨by decide, _, rfl⟩, by decide, _, rfl⟩

theorem witness_EndAndEscFrame :
    (∃ t, exec .endMarker (st true true [0x41]) = .next t) ∧ ∃ t, exec .escMarker (st true false [0x41]) = .next t :=
  ⟨⟨_, rfl⟩, _, rfl⟩

/-- a byte of each class, in both clauses -/
theorem witness_ControlTableHolds :
    ∀ i ∈ [Instr.startMarker, .endMarker, .escMarker, .data 0x61],
      (nextState (exec i (st true true [0x41]))).isSome = true ∧
        (nextState (execFor i smallOpened)).isSome = true := by decide

theorem witness_OnlyStartOpensPacket :
    (∀ x ∈ [Input.feed [0x02], .edge (offer 0x02)],
      let s := (st false true [0x41]).setInputs [x]
      s.phase = .live ∧ s.inPacket = false ∧ (nextState (step s)).map State.inPacket = some true) ∧
    (nextState (exec .endMarker (st true true [0x41]))).isSome = true := by decide

theorem witness_AnomaliesThatCoincide : anomalies .endMarker (st true true []) = [.an2, .an7] := by decide

/-- each of the nine anomalies -/
theorem witness_AnomalyEffects :
    ∀ x ∈ [(Anomaly.an1, Instr.startMarker, st true true [0x41]), (.an2, .endMarker, st true true []),
        (.an3, .endMarker, st false true [0x41]), (.an4, .data 0x61, st false true [0x41]),
        (.an6, .endMarker, { st true true [0x41] with hasSink := false }), (.an7, .escMarker, st true true [0x41]),
        (.an8, .escMarker, st false false [0x41]), (.an9, .data 0x61, st true true [0x41])],
      BufWf x.2.2 ∧ (nextState (exec x.2.1 x.2.2)).isSome = true ∧ x.1 ∈ anomalies x.2.1 x.2.2 := by decide

theorem witness_AnomalyEffects_an5 :
    BufWf (st true true full) ∧ (nextState (exec (.data 0x61) (st true true full))).isSome = true ∧
      .an5 ∈ anomalies (.data 0x61) (st true true full) :=
  ⟨(full_inv true true).1, by decide +kernel, by decide +kernel⟩

/-- a transfer and the end of a dispatch -/
theorem witness_EdgeDoesOneThing :
    (let s := (st true false [0x41]).setInputs [.edge (offer 0x03)]
     s.inputs = .edge (offer 0x03) :: [] ∧ (offer 0x03).rst = false ∧ (nextState (step s)).isSome = true) ∧
    (let p : Pins := ⟨false, true, 0x42, true, 1⟩
     let s := busy.setInputs [.edge p]
     s.inputs = .edge p :: [] ∧ p.rst = false ∧ (nextState (step s)).isSome = true) := by decide

/-- a next state, and the fault of a CURSOR no run reaches -/
theorem witness_FeedStepRunsDecoded :
    let s := (st true false []).setInputs [.feed [0x61, 0x03]]
    let u := ((st true false []).setInputs [.feed [0x02]]).setCursor 513
    (s.phase = .live ∧ s.dispatchPending = false ∧ s.inputs = .feed (0x61 :: [0x03]) :: [] ∧
      decode Config.params (0x61 :: [0x03]) = .ok (.data 0x61, [0x03]) ∧
      ∃ t, exec (.data 0x61) { s with inputs := .feed [0x03] :: [] } = .next t) ∧
    (u.phase = .live ∧ u.dispatchPending = false ∧ u.inputs = .feed (0x02 :: []) :: [] ∧
      decode Config.params (0x02 :: []) = .ok (.startMarker, []) ∧
      ∃ f, exec .startMarker { u with inputs := .feed [] :: [] } = .fault f) :=
  ⟨⟨rfl, rfl, rfl, rfl, _, rfl⟩, rfl, rfl, rfl, rfl, faults_beyond_capacity rfl rfl Memory.wf_nil⟩

theorem witness_FetchWordRunsNext :
    State.reset.phase = .live ∧ State.reset.dispatchPending = false ∧
      State.reset.cursor.toNat ≤ Config.maxPacketLen ∧ decodeTableWord 8 0x02 = some .startMarker := by decide

theorem witness_EmptyFeedDoesNothing :
    let s := (st true true [0x41]).setInputs [.feed []]
    s.phase = .live ∧ s.dispatchPending = false ∧ s.inputs = .feed [] :: [] := by decide

theorem witness_FeedIsTheFold :
    let s := (st true true [0x41]).setInputs [.feed [0x61, 0x03], .destroy]
    s.phase = .live ∧ s.dispatchPending = false ∧ Inv s ∧ s.inputs = .feed [0x61, 0x03] :: [.destroy] := by decide

theorem witness_FeedAlwaysCompletes :
    (st true true [0x41]).phase = .live ∧ (st true true [0x41]).dispatchPending = false ∧
      Inv (st true true [0x41]) := by decide

/-- the shortest and the longest packet -/
theorem witness_WellFormedPacketIsDelivered :
    Config.params.legal = true ∧
    (let s := st true false full
     s.phase = .live ∧ BufWf s ∧ s.cursor.toNat ≤ Config.maxPacketLen ∧ s.pendingUnescape = false ∧ s.hasSink = true) ∧
    ∀ p ∈ [[0x02], full], 1 ≤ p.length ∧ p.length ≤ Config.maxPacketLen :=
  ⟨by decide, ⟨rfl, (full_inv true false).1, by decide +kernel, rfl, rfl⟩, by decide +kernel⟩

theorem witness_EveryCombinationIsReached :
    Config.params.legal = true ∧ full.length ≤ Config.maxPacketLen := by decide +kernel

/-- inside a packet and outside -/
theorem witness_HiddenStateIsUnobservable :
    (let s := st false true [0x41]
     let t := st false true [0x42, 0x43]
     s.phase = .live ∧ t.phase = .live ∧ Inv s ∧ Inv t ∧ SameView s t) ∧
    (let s := st true true [0x41]
     let t := (st true true [0x41]).tick
     s.phase = .live ∧ t.phase = .live ∧ Inv s ∧ Inv t ∧ SameView s t) :=
  ⟨⟨rfl, rfl, by decide, by decide, rfl, rfl, rfl, rfl, fun h => nomatch h⟩,
    ⟨rfl, rfl, by decide, by decide, rfl, rfl, rfl, rfl, fun _ => ⟨rfl, fun _ _ => rfl⟩⟩⟩

/-- a next state, and the fault of a CURSOR no run reaches -/
theorem witness_TransferRunsDecoded :
    let s := (st true false [0x41]).setInputs [.edge (offer 0x03)]
    let u := ((st true false []).setInputs [.edge (offer 0x02)]).setCursor 513
    (s.phase = .live ∧ s.dispatchPending = false ∧ s.inputs = .edge (offer 0x03) :: [] ∧ (offer 0x03).rst = false ∧
      (offer 0x03).inValid = true ∧ decode Config.params [(offer 0x03).inData] = .ok (.endMarker, []) ∧
      ∃ t, exec .endMarker { s with inputs := [] } = .next t) ∧
    (u.phase = .live ∧ u.dispatchPending = false ∧ u.inputs = .edge (offer 0x02) :: [] ∧ (offer 0x02).rst = false ∧
      (offer 0x02).inValid = true ∧ decode Config.params [(offer 0x02).inData] = .ok (.startMarker, []) ∧
      ∃ f, exec .startMarker { u with inputs := [] } = .fault f) :=
  ⟨⟨rfl, rfl, rfl, rfl, rfl, rfl, _, rfl⟩, rfl, rfl, rfl, rfl, rfl, rfl, faults_beyond_capacity rfl rfl Memory.wf_nil⟩

/-- each of the three clauses -/
theorem witness_EdgeWithoutTransfer :
    (let s := busy.setInputs [.edge (offer 0x42)]
     s.phase = .live ∧ s.inputs = .edge (offer 0x42) :: [] ∧ (offer 0x42).rst = false ∧ s.dispatchPending = true ∧
       (offer 0x42).pktReady = false) ∧
    (let p : Pins := ⟨false, true, 0x42, true, 1⟩
     let s := busy.setInputs [.edge p]
     s.phase = .live ∧ s.inputs = .edge p :: [] ∧ p.rst = false ∧ s.dispatchPending = true ∧ p.pktReady = true) ∧
    (let p : Pins := ⟨false, false, 0x42, true, 1⟩
     let s := (st true true [0x41]).setInputs [.edge p]
     s.phase = .live ∧ s.inputs = .edge p :: [] ∧ p.rst = false ∧ s.dispatchPending = false ∧ p.inValid = false) := by
  decide

theorem witness_PendingDispatchFreezes :
    let s := busy.setInputs [.edge (offer 0x42), .edge (offer 0x43), .destroy]
    s.phase = .live ∧ s.dispatchPending = true ∧
      (∀ p ∈ [offer 0x42, offer 0x43], p.rst = false ∧ p.pktReady = false) ∧
      s.inputs = [offer 0x42, offer 0x43].map .edge ++ [.destroy] := by decide

theorem witness_OutputsDuringDispatch : busy.phase = .live ∧ busy.dispatchPending = true ∧ Inv busy := by decide

theorem witness_NoSinkNoDispatch :
    let s := { st true false [0x41] with hasSink := false, inputs := [.edge (offer 0x03)] }
    s.phase = .live ∧ s.hasSink = false ∧ s.dispatchPending = false ∧ s.events = [] ∧
      (nextState (step s)).map State.phase = some .live := by decide

/-- both clauses -/
theorem witness_StepKeepsRunInvariant :
    (Inv (busy.setInputs [.edge (offer 0x42)]) ∧
      (nextState (step (busy.setInputs [.edge (offer 0x42)]))).isSome = true) ∧
    Inv smallOpened ∧ (nextState (stepFor smallOpened)).isSome = true := by decide

/-- each clause -/
theorem witness_NothingFaults :
    (Inv busy ∧ busy.phase = .live ∧ (busy.setInputs [.edge (offer 0x42)]).inputs = .edge (offer 0x42) :: []) ∧
      Inv (st true false full) ∧ (st true false full).dispatchPending = false ∧
      ((st true false full).setInputs [.feed [0x61]]).inputs = .feed [0x61] :: [] :=
  ⟨by decide, full_inv true false, rfl, rfl⟩

/-- A decoder that was fed `02 41`, with END to come. -/
def opened : State :=
  { st true false [0x41] with accepted := [0x02, 0x41], inputs := [.edge (offer 0x03)] }

/-- both clauses -/
theorem witness_StepKeepsRefinement :
    (Refines opened ∧ ∃ t, step opened = .next t) ∧ Refines smallOpened ∧ ∃ t, stepFor smallOpened = .next t :=
  ⟨⟨fun _ => ⟨⟨_, rfl, rfl, rfl, rfl, rfl, rfl⟩, rfl⟩, _, rfl⟩,
    fun _ => ⟨⟨_, rfl, rfl, rfl, rfl, rfl, rfl⟩, rfl⟩, _, rfl⟩

/-- both clauses -/
theorem witness_StepKeepsEventBounds :
    (EventsBounded opened ∧ ∃ t, step opened = .next t) ∧
      EventsBounded smallOpened ∧ ∃ t, stepFor smallOpened = .next t :=
  ⟨⟨fun _ => ⟨by decide, by decide, by decide⟩, _, rfl⟩, fun _ => ⟨by decide, by decide, by decide⟩, _, rfl⟩

/-- V39: two decoders -/
theorem witness_DecodersAreIndependent :
    let ds := [(st true false [0x41]).setInputs [.feed [0x03]], (st false false []).setInputs [.feed [0x02]]]
    ∃ es, stepDecoder 0 ds = .next es ∧ es[1]? = ds[1]? := ⟨_, rfl, rfl⟩

end Sys2Proof.Tests
end

section
/-! The encoding of bytes under the constraints of R8: which bytes are markers, which sets are legal, and when escaping a byte
and unescaping it again gives the byte. -/

namespace Sys2Proof

open Sys2Proof.Machine

/-- Setting the mask bits of `x` and clearing them again gives `x` exactly when `x` has none of them (R63). -/
theorem or_and_not_eq_self_iff {w : Nat} {mask x : BitVec w} : (x ||| mask) &&& ~~~ mask = x ↔ x &&& mask = 0 := by
  have bitwise : ∀ a b : Bool, ((a || b) && !b) = a ↔ (a && b) = false := by decide
  simp only [BitVec.eq_of_getLsbD_eq_iff]
  refine forall₂_congr fun i hi => ?_
  simpa [hi] using bitwise (x.getLsbD i) (mask.getLsbD i)

theorem Params.mem_markers {p : Params} {m : Byte} :
    m ∈ p.markers ↔ m = p.startByte ∨ m = p.endByte ∨ m = p.escByte := by
  simp [markers]

/-- Constraint 1 of R8, as the check tests it on the list and as the spec writes it. -/
theorem Params.markers_nodup_iff {p : Params} :
    p.markers.Nodup ↔ p.startByte ≠ p.endByte ∧ p.startByte ≠ p.escByte ∧ p.endByte ≠ p.escByte := by
  simp [markers, and_assoc]

theorem Params.isMarker_eq_false_iff {p : Params} {b : Byte} :
    p.isMarker b = false ↔ b ≠ p.startByte ∧ b ≠ p.endByte ∧ b ≠ p.escByte := by
  rw [← Bool.not_eq_true, isMarker_eq_true, not_or, not_or]

/-- The DATA bytes are those that are no marker, whether or not the set is legal (R52). -/
theorem classify_eq_data_iff {p : Params} {b : Byte} : classify p b = .data ↔ p.isMarker b = false := by
  rw [Params.isMarker_eq_false_iff]
  unfold classify
  split_ifs <;> simp [*]

/-- R8 as the spec writes it: the markers named one by one, with the two consequences the rule draws. -/
theorem Params.legal_iff_constraints {p : Params} :
    p.legal = true ↔
      (p.startByte ≠ p.endByte ∧ p.startByte ≠ p.escByte ∧ p.endByte ≠ p.escByte) ∧
      1 ≤ p.maxPacketLen ∧
      (∀ m, m = p.startByte ∨ m = p.endByte ∨ m = p.escByte →
        m &&& p.escMask = 0 ∧ (m ||| p.escMask) &&& ~~~ p.escMask = m) ∧
      (∀ m, m = p.startByte ∨ m = p.endByte ∨ m = p.escByte →
        m ||| p.escMask ≠ p.startByte ∧ m ||| p.escMask ≠ p.endByte ∧ m ||| p.escMask ≠ p.escByte ∧
        classify p (m ||| p.escMask) = .data) := by
  have dataTwice (b : Byte) : (b ≠ p.startByte ∧ b ≠ p.endByte ∧ b ≠ p.escByte ∧ classify p b = .data) ↔
      p.isMarker b = false := by
    rw [classify_eq_data_iff, isMarker_eq_false_iff]
    tauto
  simp only [legal_iff, markers_nodup_iff, mem_markers, or_and_not_eq_self_iff, and_self, dataTwice]

theorem Params.legal_iff_check {p : Params} : p.legal = true ↔ p.check = none := beq_iff_eq

theorem elaborate_of_legal {P : Params} (h : P.legal = true) {W : Nat} (hasSink : Bool) (ctx : BitVec W) :
    elaborate P W hasSink ctx = .ok (machineFor P W hasSink ctx) := by
  simp only [elaborate, Params.legal_iff_check.mp h]

theorem elaborate_of_not_legal {P : Params} (h : P.legal = false) {W : Nat} (hasSink : Bool) (ctx : BitVec W) :
    ∃ e, elaborate P W hasSink ctx = .error e := by
  have hc : P.check ≠ none := fun hc => Bool.false_ne_true (h.symm.trans (Params.legal_iff_check.mpr hc))
  obtain ⟨e, he⟩ := Option.ne_none_iff_exists'.mp hc
  exact ⟨e, by simp only [elaborate, he]⟩

theorem Config.params_legal : Config.params.legal = true := by decide

/-- The default set's machine is the one behind the fixed names (log entry 15). -/
theorem machineFor_default : machineFor Config.params Config.ctxW Config.hasSink Config.ctx = core := rfl

/-- Settles O1: `Params.legal_iff_constraints` is R8, and `elaborate` asks for nothing else. -/
theorem parameterSetsAreChecked : Obligations.ParameterSetsAreChecked :=
  ⟨fun _ => Params.legal_iff_constraints,
    fun _ _ hasSink ctx => ⟨fun h => elaborate_of_legal h hasSink ctx, fun h => elaborate_of_not_legal h hasSink ctx⟩,
    machineFor_default ▸ elaborate_of_legal Config.params_legal Config.hasSink Config.ctx,
    Config.params_legal, rfl, by decide, by decide⟩

/-- The escaped form of a marker of a legal set is DATA: constraint 4 of R8. -/
theorem classify_escaped_marker {p : Params} (hp : p.legal = true) {m : Byte} (hm : m ∈ p.markers) :
    classify p (m ||| p.escMask) = .data := by
  obtain ⟨_, _, _, escapedNoMarker⟩ := Params.legal_iff.mp hp
  exact classify_eq_data_iff.mpr (escapedNoMarker m hm)

/-- The escaped form of a marker of a legal set unescapes to the marker: constraint 3 of R8. -/
theorem unescape_escaped_marker {p : Params} (hp : p.legal = true) {m : Byte} (hm : m ∈ p.markers) :
    unescape p (m ||| p.escMask) = m := by
  obtain ⟨_, _, maskClear, _⟩ := Params.legal_iff.mp hp
  exact or_and_not_eq_self_iff.mpr (maskClear m hm)

/-- Settles O7, from constraints 3 and 4 of R8 and the bitwise law of the mask. -/
theorem escapedMarkersRoundTrip : Obligations.EscapedMarkersRoundTrip :=
  ⟨fun _ hp _ hm => ⟨classify_escaped_marker hp hm, unescape_escaped_marker hp hm⟩, fun _ _ => or_and_not_eq_self_iff⟩

end Sys2Proof
end

section
/-! The two widths as the least ones: a width is enough for CURSOR, for the read index, exactly when it is at least the width
the model computes (R7, R119). -/

namespace Sys2Proof

open Sys2Proof.Machine

/-- Bit vectors of width `w` take all values below `k` exactly when there are at least `k` of them. -/
theorem forall_lt_exists_toNat_iff {k w : Nat} : (∀ n, n < k → ∃ c : BitVec w, c.toNat = n) ↔ k ≤ 2 ^ w := by
  constructor
  · intro h
    by_contra hk
    obtain ⟨c, hc⟩ := h (2 ^ w) (Nat.lt_of_not_le hk)
    exact c.isLt.ne hc
  · exact fun h n hn => ⟨BitVec.ofNatLT n (hn.trans_le h), rfl⟩

theorem leastWidth_le_iff {n w : Nat} : leastWidth n ≤ w ↔ n < 2 ^ w :=
  ⟨fun h => (lt_two_pow_leastWidth n).trans_le (Nat.pow_le_pow_right Nat.two_pos h), leastWidth_le⟩

theorem Params.cursorW_le_iff {p : Params} {w : Nat} : p.cursorW ≤ w ↔ p.maxPacketLen < 2 ^ w := leastWidth_le_iff

/-- An empty buffer needs no index and width 0 does, so the truncated `maxPacketLen - 1` is right there too. -/
theorem Params.raddrW_le_iff {p : Params} {w : Nat} : p.raddrW ≤ w ↔ p.maxPacketLen ≤ 2 ^ w := by
  have := Nat.two_pow_pos w
  rw [raddrW, leastWidth_le_iff]
  omega

theorem Params.holds_lengths_iff {p : Params} {w : Nat} :
    (∀ n, n ≤ p.maxPacketLen → ∃ c : BitVec w, c.toNat = n) ↔ p.cursorW ≤ w := by
  simpa only [Nat.lt_succ_iff, Nat.succ_le_iff, ← cursorW_le_iff] using
    forall_lt_exists_toNat_iff (k := p.maxPacketLen + 1) (w := w)

theorem Params.holds_indices_iff {p : Params} {w : Nat} :
    (∀ n, n < p.maxPacketLen → ∃ a : BitVec w, a.toNat = n) ↔ p.raddrW ≤ w :=
  forall_lt_exists_toNat_iff.trans raddrW_le_iff.symm

theorem Config.params_cursorW : Config.params.cursorW = 10 := by decide

theorem Config.params_raddrW : Config.params.raddrW = 9 := by decide

theorem cursor_toNat_lt_of_default (s : State) : s.cursor.toNat < 1024 :=
  s.cursor.isLt.trans_eq (congrArg (2 ^ ·) Config.params_cursorW)

/-- Settles O2: a width holds the lengths, the indices, exactly when it is at least the computed one. -/
theorem widthsAreLeast : Obligations.WidthsAreLeast :=
  ⟨fun _ => ⟨Params.holds_lengths_iff.mpr le_rfl, fun _ => Params.holds_lengths_iff,
      Params.holds_indices_iff.mpr le_rfl, fun _ => Params.holds_indices_iff⟩,
    cursor_toNat_lt_of_default, Config.params_cursorW, Config.params_raddrW⟩

end Sys2Proof
end

section
/-! Everything a step can do (R103, R116, R135), as one list of cases, and what an instruction leaves alone: each invariant of
the step is a case analysis over it. -/

namespace Sys2Proof.Machine

variable {P : Params} {C : Type} {W : Nat}

/-- An instruction changes BUF, CURSOR, the two flags and the trace of events, and nothing else. -/
theorem ExecCase.frame {i : Instr} {s t : State P C} (h : ExecCase s t i) :
    t = { s with
      mem := t.mem, cursor := t.cursor, inPacket := t.inPacket, pendingUnescape := t.pendingUnescape
      events := t.events } := by
  cases h <;> subst_vars <;> rfl

theorem ExecCase.phase_eq {i : Instr} {s t : State P C} (h : ExecCase s t i) : t.phase = s.phase := by rw [h.frame]

theorem ExecCase.dispatchPending_eq {i : Instr} {s t : State P C} (h : ExecCase s t i) :
    t.dispatchPending = s.dispatchPending := by rw [h.frame]

/-- What a step can do from `s` to `t`: one constructor for each thing the environment offers and the block does with it. -/
inductive StepCase (s t : State P (BitVec W)) : Prop where
  /-- nothing is offered (R154) -/
  | idle : s.inputs = [] → t = s → StepCase s t
  /-- CREATE (R100) -/
  | create (hasSink : Bool) (ctx : BitVec W) (rest : List (Input P (BitVec W))) :
      s.inputs = .create hasSink ctx :: rest → s.phase = .unconstructed →
      t = (s.setInputs rest).construct hasSink ctx → StepCase s t
  /-- FEED of an empty chunk (R106) -/
  | feedEmpty (rest : List (Input P (BitVec W))) :
      s.inputs = .feed [] :: rest → s.phase = .live → s.dispatchPending = false → t = s.setInputs rest → StepCase s t
  /-- a byte of a FEED (R102, R108) -/
  | feedByte (b : Byte) (bs : List Byte) (rest : List (Input P (BitVec W))) (u : State P (BitVec W)) :
      s.inputs = .feed (b :: bs) :: rest → s.phase = .live → s.dispatchPending = false →
      ExecCase (s.setInputs (.feed bs :: rest)) u (decodeByte P b) →
      t = (u.accept b).complete (emitted s u) → StepCase s t
  /-- DESTROY (R110) -/
  | destroy (rest : List (Input P (BitVec W))) :
      s.inputs = .destroy :: rest → s.phase = .live → s.dispatchPending = false →
      t = (s.setInputs rest).setPhase .destroyed → StepCase s t
  /-- a reset edge (R121) -/
  | reset (p : Pins P) (rest : List (Input P (BitVec W))) :
      s.inputs = .edge p :: rest → p.rst = true →
      t = ((s.setInputs rest).construct s.hasSink s.ctx).tick → StepCase s t
  /-- an edge that does nothing: the sink still has a dispatch, or no byte is offered (R133, R135) -/
  | hold (p : Pins P) (rest : List (Input P (BitVec W))) :
      s.inputs = .edge p :: rest → p.rst = false →
      (s.phase = .live → s.dispatchPending = true ∧ p.pktReady = false ∨ s.dispatchPending = false ∧ p.inValid = false) →
      t = (s.setInputs rest).tick → StepCase s t
  /-- an edge that ends a dispatch (R132) -/
  | leave (p : Pins P) (rest : List (Input P (BitVec W))) :
      s.inputs = .edge p :: rest → p.rst = false → s.phase = .live → s.dispatchPending = true → p.pktReady = true →
      t = ((s.setInputs rest).leaveDispatch (portDispatch s)).tick → StepCase s t
  /-- an input transfer (R124, R125) -/
  | transfer (p : Pins P) (rest : List (Input P (BitVec W))) (u : State P (BitVec W)) :
      s.inputs = .edge p :: rest → p.rst = false → p.inValid = true → s.phase = .live → s.dispatchPending = false →
      ExecCase (s.setInputs rest) u (decodeByte P p.inData) →
      t = ((u.accept p.inData).setDispatchPending (!(emitted s u).isEmpty)).tick → StepCase s t

theorem stepFor_stepCase {s t : State P (BitVec W)} (h : stepFor s = .next t) : StepCase s t := by
  obtain ⟨hx, rfl⟩ | ⟨x, rest, hx, h⟩ := stepFor_cases h
  · exact .idle hx rfl
  obtain ⟨hasSink, ctx, rfl, hp, rfl⟩ | ⟨rfl, hp, hd, rfl⟩ | ⟨b, bs, u, rfl, hp, hd, hu, rfl⟩ |
    ⟨rfl, hp, hd, rfl⟩ | ⟨p, u, rfl, he, rfl⟩ := takeInput_cases h
  · exact .create hasSink ctx rest hx hp rfl
  · exact .feedEmpty rest hx hp hd rfl
  · exact .feedByte b bs rest u hx hp hd (execFor_cases hu).2 rfl
  · exact .destroy rest hx hp hd rfl
  · obtain ⟨hr, rfl⟩ | ⟨hr, rfl, idle⟩ | ⟨hr, hp, hd, ready, rfl⟩ | ⟨hr, hp, hd, hv, u, hu, rfl⟩ := edge_cases he
    · exact .reset p rest hx hr rfl
    · exact .hold p rest hx hr idle rfl
    · exact .leave p rest hx hr hp hd ready rfl
    · exact .transfer p rest u hx hr hv hp hd (execFor_cases hu).2 rfl

/-- A step with an input listed takes it. -/
theorem stepFor_of_inputs {s : State P (BitVec W)} {x : Input P (BitVec W)} {rest : List (Input P (BitVec W))}
    (h : s.inputs = x :: rest) : stepFor s = takeInput x (s.setInputs rest) := by
  simp only [stepFor, h]

end Sys2Proof.Machine
end

section
/-! The invariant of a run (R19, R20, R24): what each instruction keeps of it, then what each step keeps. -/

namespace Sys2Proof.Machine

variable {P : Params} {C : Type} {W : Nat}

/-- Everything a completed clear says: its cells exist, they read 0x00, and the others are kept. -/
theorem Memory.clearBelow_eq_ok {cap n : Nat} {m m' : Memory} (hw : m.wf cap) (h : m.clearBelow cap n = .ok m') :
    n ≤ cap ∧ m'.wf cap ∧ ∀ a, m'.cellAt a = if a < n then 0 else m.cellAt a := by
  have spec := clearBelow_spec hw n
  rw [h] at spec
  split at spec
  · obtain ⟨_, e, hspec⟩ := spec
    cases e
    exact ⟨‹_›, hspec⟩
  · obtain ⟨_, e⟩ := spec
    cases e

/-- Cells beyond the last listed one read 0x00. -/
theorem Memory.cellAt_of_le {m : Memory} {n a : Nat} (h : ∀ c ∈ m, c.1 < n) (ha : n ≤ a) : m.cellAt a = 0 :=
  cellAt_unlisted fun c hc => ((h c hc).trans_le ha).ne

/-- A clear up to the last listed cell empties a canonical buffer. -/
theorem Memory.clearBelow_eq_nil {cap n : Nat} {m m' : Memory} (hw : m.wf cap) (hn : ∀ c ∈ m, c.1 < n)
    (h : m.clearBelow cap n = .ok m') : m' = [] := by
  obtain ⟨-, hw', hm'⟩ := clearBelow_eq_ok hw h
  refine ext_of_cellAt hw' wf_nil fun a => ?_
  rw [hm', cellAt_nil, ite_eq_left_iff]
  exact fun ha => cellAt_of_le hn (Nat.le_of_not_lt ha)

theorem ExecCase.bufWf {i : Instr} {s t : State P C} (h : ExecCase s t i) (hw : BufWf s) : BufWf t := by
  cases h with
  | start m e ht => exact ht ▸ (Memory.clearBelow_eq_ok hw e).2.1
  | store b _ room ht => exact ht ▸ Memory.update_wf hw (hasRoom_eq_true.mp room) _
  | _ => subst_vars; exact hw

theorem ExecCase.cursor_le {i : Instr} {s t : State P C} (h : ExecCase s t i) (hc : s.cursor.toNat ≤ P.maxPacketLen) :
    t.cursor.toNat ≤ P.maxPacketLen := by
  cases h with
  | start m e ht => simp [ht]
  | store b _ room ht =>
    rw [hasRoom_eq_true] at room
    rw [ht, cursor_succ room]
    exact room
  | _ => subst_vars; exact hc

/-- An instruction lists no cell at or beyond CURSOR. -/
theorem ExecCase.mem_below {i : Instr} {s t : State P C} (h : ExecCase s t i) (hw : BufWf s)
    (hm : ∀ c ∈ s.mem, c.1 < s.cursor.toNat) : ∀ c ∈ t.mem, c.1 < t.cursor.toNat := by
  cases h with
  | start m e ht => simp [ht, Memory.clearBelow_eq_nil hw hm e]
  | store b _ room ht =>
    rw [ht, cursor_succ (hasRoom_eq_true.mp room)]
    intro c hc
    rcases Memory.mem_update hc with hc | rfl
    · exact Nat.lt_succ_of_lt (hm c hc)
    · exact Nat.lt_succ_self _
  | _ => subst_vars; exact hm

/-- The part of the invariant that speaks of BUF and CURSOR (R19, R20). -/
structure Fits (s : State P C) : Prop where
  bufWf : BufWf s
  cursor_le : s.cursor.toNat ≤ P.maxPacketLen
  mem_below : ∀ c ∈ s.mem, c.1 < s.cursor.toNat

theorem Fits.setInputs {s : State P C} (h : Fits s) (xs : List (Input P C)) : Fits (s.setInputs xs) :=
  ⟨h.bufWf, h.cursor_le, h.mem_below⟩

theorem inv_iff_of_live {s : State P C} (hp : s.phase = .live) :
    Inv s ↔ Fits s ∧ (s.dispatchPending = true → s.inPacket = false ∧ 0 < s.cursor.toNat ∧ s.hasSink = true) := by
  constructor
  · rintro ⟨hw, h⟩
    obtain ⟨hc, hm, hd⟩ := h hp
    exact ⟨⟨hw, hc, hm⟩, hd⟩
  · rintro ⟨⟨hw, hc, hm⟩, hd⟩
    exact ⟨hw, fun _ => ⟨hc, hm, hd⟩⟩

theorem ExecCase.fits {i : Instr} {s t : State P C} (h : ExecCase s t i) (hs : Fits s) : Fits t :=
  ⟨h.bufWf hs.bufWf, h.cursor_le hs.cursor_le, h.mem_below hs.bufWf hs.mem_below⟩

/-- An instruction that emits an event leaves the closed, nonempty packet it dispatched (R74, R76). -/
theorem ExecCase.of_emitted {i : Instr} {s t : State P C} (h : ExecCase s t i) (he : emitted s t ≠ []) :
    t.inPacket = false ∧ 0 < t.cursor.toNat ∧ t.hasSink = true := by
  cases h with
  | dispatch may _ ht =>
    obtain ⟨-, pos, sink⟩ := mayDispatch_eq_true.mp may
    exact ht ▸ ⟨rfl, pos, sink⟩
  | _ => subst_vars; simp [emitted] at he

theorem inv_of_empty {s : State P C} (hm : s.mem = []) (hd : s.dispatchPending = false) (hc : s.cursor = 0) : Inv s :=
  ⟨by rw [BufWf, hm]; exact Memory.wf_nil, fun _ => ⟨by simp [hc], by simp [hm], by simp [hd]⟩⟩

theorem inv_construct (s : State P C) (hasSink : Bool) (ctx : C) : Inv (s.construct hasSink ctx) :=
  inv_of_empty rfl rfl rfl

theorem inv_initial (hasSink : Bool) (ctx : C) : Inv (State.initial hasSink ctx : State P C) := inv_of_empty rfl rfl rfl

theorem StepCase.inv {s t : State P (BitVec W)} (h : StepCase s t) (hs : Inv s) : Inv t := by
  cases h with
  | idle _ ht | feedEmpty _ _ _ _ ht | hold _ _ _ _ _ ht => exact ht ▸ hs
  | create hasSink ctx rest _ _ ht => exact ht ▸ inv_construct _ hasSink ctx
  | reset p rest _ _ ht => exact ht ▸ inv_construct (s.setInputs rest) s.hasSink s.ctx
  | destroy _ _ _ _ ht => exact ht ▸ ⟨hs.1, nofun⟩
  | leave _ _ _ _ _ _ _ ht =>
    refine ht ▸ ⟨hs.1, fun hp => ?_⟩
    obtain ⟨hc, hm, -⟩ := hs.2 hp
    exact ⟨hc, hm, nofun⟩
  | feedByte b bs rest u _ hp hd hu ht =>
    have hs : Fits s := ((inv_iff_of_live hp).mp hs).1
    obtain ⟨hw, hc, hm⟩ := hu.fits (hs.setInputs _)
    have hd : u.dispatchPending ≠ true := by simp [hu.dispatchPending_eq, hd]
    exact ht ▸ ⟨hw, fun _ => ⟨hc, hm, fun h => absurd h hd⟩⟩
  | transfer p rest u _ _ _ hp _ hu ht =>
    have hs : Fits s := ((inv_iff_of_live hp).mp hs).1
    obtain ⟨hw, hc, hm⟩ := hu.fits (hs.setInputs _)
    exact ht ▸ ⟨hw, fun _ => ⟨hc, hm, fun h => hu.of_emitted (show emitted s u ≠ [] by simpa using h)⟩⟩

/-- Settles O55: every case of a step keeps the invariant. -/
theorem stepKeepsRunInvariant : Obligations.StepKeepsRunInvariant :=
  ⟨fun _ _ hs h => (stepFor_stepCase h).inv hs, fun _ _ _ _ hs h => (stepFor_stepCase h).inv hs⟩

/-- Settles O54. -/
theorem runInvariantAtReset : Obligations.RunInvariantAtReset := inv_initial Config.hasSink Config.ctx

end Sys2Proof.Machine
end

section
/-! The lifecycle (R25, R29, R112): what construction and reset leave, and the moves between the phases. -/

namespace Sys2Proof.Machine

variable {P : Params} {C : Type} {W : Nat}

/-- What construction and reset leave (R29): everything but HAS_SINK, CTX, and what is not the block's. -/
def State.Blank (t : State P C) : Prop :=
  (∀ a, a < P.maxPacketLen → t.readCell a = .ok 0) ∧ t.cursor = 0 ∧ t.inPacket = false ∧
  t.pendingUnescape = false ∧ t.control = .idleUnescaped ∧ t.dispatchPending = false ∧ t.phase = .live

theorem State.construct_blank (s : State P C) (hasSink : Bool) (ctx : C) : (s.construct hasSink ctx).Blank :=
  ⟨fun _ ha => Memory.read_eq_ok.mpr ⟨ha, rfl⟩, rfl, rfl, rfl, rfl, rfl, rfl⟩

/-- CREATE of an unconstructed decoder constructs it with its arguments (R100). -/
theorem stepFor_create {s : State P (BitVec W)} {hasSink : Bool} {ctx : BitVec W} {rest : List (Input P (BitVec W))}
    (hp : s.phase = .unconstructed) (hx : s.inputs = .create hasSink ctx :: rest) :
    stepFor s = .next ((s.setInputs rest).construct hasSink ctx) := by
  simp [stepFor_of_inputs hx, takeInput, Machine.create, hp]

/-- A reset edge constructs the decoder again with its constants, in every phase (R121; log entry 7). -/
theorem stepFor_reset {s : State P (BitVec W)} {p : Pins P} {rest : List (Input P (BitVec W))}
    (hx : s.inputs = .edge p :: rest) (hr : p.rst = true) :
    stepFor s = .next ((s.setInputs rest).construct s.hasSink s.ctx).tick := by
  simp [stepFor_of_inputs hx, takeInput, edge, hr]

/-- DESTROY of a live decoder outside a dispatch (R110). -/
theorem stepFor_destroy {s : State P (BitVec W)} {rest : List (Input P (BitVec W))} (hp : s.phase = .live)
    (hd : s.dispatchPending = false) (hx : s.inputs = .destroy :: rest) :
    stepFor s = .next ((s.setInputs rest).setPhase .destroyed) := by
  simp [stepFor_of_inputs hx, takeInput, Machine.destroy, inLive_of_live, hp, hd]

/-- Settles O9: construction and reset put the same blank state in place. -/
theorem constructionAndResetValues : Obligations.ConstructionAndResetValues :=
  ⟨State.construct_blank State.reset Config.hasSink Config.ctx,
    fun _ hasSink ctx _ hp hx => ⟨_, stepFor_create hp hx, State.construct_blank _ hasSink ctx, rfl, rfl, rfl⟩,
    fun s _ rest hx hr =>
      ⟨_, stepFor_reset hx hr, State.construct_blank (s.setInputs rest) s.hasSink s.ctx, rfl, rfl, rfl⟩⟩

/-- Settles O10. -/
theorem destroyEmitsNothing : Obligations.DestroyEmitsNothing := fun _ _ hp hd hx => stepFor_destroy hp hd hx

/-- The moves of R112, with the reset of any decoder (log entry 7). -/
theorem StepCase.phase_moves {s t : State P (BitVec W)} (h : StepCase s t) (hne : t.phase ≠ s.phase) :
    (t.phase = .live ∧ ∃ rest, (s.phase = .unconstructed ∧ ∃ h c, s.inputs = .create h c :: rest) ∨
      ∃ p, s.inputs = .edge p :: rest ∧ p.rst = true) ∨
    (s.phase = .live ∧ t.phase = .destroyed ∧ ∃ rest, s.inputs = .destroy :: rest) := by
  cases h with
  | create hasSink ctx rest hx hp ht => exact .inl ⟨ht ▸ rfl, rest, .inl ⟨hp, hasSink, ctx, hx⟩⟩
  | reset p rest hx hr ht => exact .inl ⟨ht ▸ rfl, rest, .inr ⟨p, hx, hr⟩⟩
  | destroy rest hx hp _ ht => exact .inr ⟨hp, ht ▸ rfl, rest, hx⟩
  | feedByte _ _ _ _ _ _ _ hu ht | transfer _ _ _ _ _ _ _ _ hu ht => subst ht; exact absurd hu.phase_eq hne
  | idle _ ht | feedEmpty _ _ _ _ ht | hold _ _ _ _ _ ht | leave _ _ _ _ _ _ _ ht => subst ht; exact absurd rfl hne

/-- Settles O13: only CREATE, reset and DESTROY write PHASE. -/
theorem lifecycleMoves : Obligations.LifecycleMoves := fun _ _ h hne => (stepFor_stepCase h).phase_moves hne

/-- Nothing accepted, nothing emitted, nothing ended: the empty run. -/
theorem initial_refines (hasSink : Bool) (ctx : BitVec W) : Refines (State.initial hasSink ctx : State P (BitVec W)) :=
  fun _ => ⟨⟨_, rfl, rfl, rfl, rfl, rfl, rfl⟩, rfl⟩

/-- Settles O57: the run of no byte leaves the state it starts in. -/
theorem refinementAtReset : Obligations.RefinementAtReset := initial_refines Config.hasSink Config.ctx

end Sys2Proof.Machine
end

section
/-! The framing machine (R16, R23, R113): the transition table in terms of the two flags, and what opens a packet. -/

namespace Sys2Proof.Machine

variable {P : Params} {C : Type} {W : Nat}

@[simp] theorem nextControl_start (room inPacket pending : Bool) :
    nextControl room (controlOf inPacket pending) .startMarker = controlOf true pending := by
  cases inPacket <;> cases pending <;> rfl

@[simp] theorem nextControl_end (room inPacket pending : Bool) :
    nextControl room (controlOf inPacket pending) .endMarker = controlOf false pending := by
  cases inPacket <;> cases pending <;> rfl

@[simp] theorem nextControl_esc (room inPacket pending : Bool) :
    nextControl room (controlOf inPacket pending) .escMarker = controlOf inPacket true := by
  cases inPacket <;> cases pending <;> rfl

@[simp] theorem nextControl_data_idle (room pending : Bool) :
    nextControl room (controlOf false pending) .data = controlOf false pending := by
  cases pending <;> rfl

/-- DATA in a packet uses the escape up, and the packet stays open exactly with room. -/
@[simp] theorem nextControl_data_packet (room pending : Bool) :
    nextControl room (controlOf true pending) .data = controlOf room false := by
  cases room <;> cases pending <;> rfl

theorem ExecCase.control_eq {i : Instr} {s t : State P C} (h : ExecCase s t i) :
    t.control = nextControl s.hasRoom s.control i.byteClass := by
  cases h with
  | idle _ closed ht => simp [ht, State.control, Instr.byteClass, closed]
  | store _ opened room ht | abort _ opened room ht => simp [ht, State.control, Instr.byteClass, opened, room]
  | _ => subst_vars; simp [State.control, Instr.byteClass]

/-- Settles O35: each case of an instruction is an entry of the table. -/
theorem controlTableHolds : Obligations.ControlTableHolds :=
  ⟨fun _ _ _ h => (exec_cases h).2.control_eq, fun _ _ _ _ _ h => (execFor_cases h).2.control_eq⟩

theorem decodeByte_eq_startMarker_iff {p : Params} {b : Byte} : decodeByte p b = .startMarker ↔ b = p.startByte := by
  unfold decodeByte classify
  split_ifs <;> simp_all

theorem ExecCase.eq_start_of_opens {i : Instr} {s t : State P C} (h : ExecCase s t i) (hs : s.inPacket = false)
    (ht : t.inPacket = true) : i = .startMarker := by
  cases h <;> simp_all

theorem ExecCase.closed_of_end {s t : State P C} (h : ExecCase s t .endMarker) : t.inPacket = false := by
  cases h <;> subst_vars <;> rfl

/-- A step that opens a packet accepts a START byte. -/
theorem StepCase.start_of_opens {s t : State P (BitVec W)} (h : StepCase s t) (hs : s.inPacket = false)
    (ht : t.inPacket = true) :
    ∃ x rest, s.inputs = x :: rest ∧
      ((∃ bs, x = .feed (P.startByte :: bs)) ∨
       (∃ p, x = .edge p ∧ p.rst = false ∧ p.inValid = true ∧ p.inData = P.startByte)) := by
  cases h with
  | feedByte b bs rest u hx _ _ hu htu =>
    subst htu
    obtain rfl := decodeByte_eq_startMarker_iff.mp (hu.eq_start_of_opens hs ht)
    exact ⟨_, rest, hx, .inl ⟨bs, rfl⟩⟩
  | transfer p rest u hx hr hv _ _ hu htu =>
    subst htu
    have start := decodeByte_eq_startMarker_iff.mp (hu.eq_start_of_opens hs ht)
    exact ⟨_, rest, hx, .inr ⟨p, rfl, hr, hv, start⟩⟩
  | create _ _ _ _ _ htu | reset _ _ _ _ htu => subst htu; exact absurd ht Bool.false_ne_true
  | idle _ htu | feedEmpty _ _ _ _ htu | destroy _ _ _ _ htu | hold _ _ _ _ _ htu | leave _ _ _ _ _ _ _ htu =>
    subst htu; exact absurd (hs.symm.trans ht) Bool.false_ne_true

/-- Settles O36: of the cases of an instruction only START's opens a packet, and END's close it. -/
theorem onlyStartOpensPacket : Obligations.OnlyStartOpensPacket :=
  ⟨fun _ _ _ hs ht h => (stepFor_stepCase h).start_of_opens hs ht, fun _ _ h => (exec_cases h).2.closed_of_end⟩

end Sys2Proof.Machine
end

section
/-! The content of a decoder: constants, flags and the bytes assembled so far. One instruction acts on the content alone
(R22, R103), so a run of a stream is a run over contents. -/

namespace Sys2Proof.Machine

variable {P : Params} {C : Type}

/-- The bytes assembled so far: the cells below CURSOR. -/
def State.assembled (s : State P C) : List Byte := (List.range s.cursor.toNat).map s.mem.cellAt

@[simp] theorem State.length_assembled (s : State P C) : s.assembled.length = s.cursor.toNat := by simp [assembled]

theorem State.assembled_eq_iff {s t : State P C} :
    s.assembled = t.assembled ↔
      s.cursor = t.cursor ∧ ∀ a, a < s.cursor.toNat → s.mem.cellAt a = t.mem.cellAt a := by
  constructor
  · intro h
    have hc : s.cursor = t.cursor := BitVec.eq_of_toNat_eq (by simpa using congrArg List.length h)
    rw [assembled, assembled, ← hc] at h
    exact ⟨hc, fun a ha => List.map_inj_left.mp h a (List.mem_range.mpr ha)⟩
  · rintro ⟨hc, h⟩
    rw [assembled, assembled, ← hc]
    exact List.map_congr_left fun a ha => h a (List.mem_range.mp ha)

/-- Where nothing is listed at or beyond CURSOR, the assembled bytes are all that BUF holds (R20). -/
theorem Fits.cellAt_eq {s : State P C} (h : Fits s) (a : Nat) : s.mem.cellAt a = s.assembled.getD a 0 := by
  by_cases ha : a < s.cursor.toNat
  · simp [State.assembled, ha]
  · have ha := Nat.le_of_not_lt ha
    rw [Memory.cellAt_of_le h.mem_below ha, List.getD_eq_default _ _ (by simpa using ha)]

/-- What a state holds, of what an instruction reads. -/
structure Content (P : Params) (C : Type) where
  hasSink : Bool
  ctx : C
  inPacket : Bool
  pendingUnescape : Bool
  bytes : List Byte

/-- The content of a state. -/
def State.content (s : State P C) : Content P C :=
  { hasSink := s.hasSink, ctx := s.ctx, inPacket := s.inPacket, pendingUnescape := s.pendingUnescape
    bytes := s.assembled }

/-- The effect of an instruction on the content (R67, R73, R82, R89). -/
def Content.next (c : Content P C) : Instr → Content P C
  | .startMarker => { c with inPacket := true, bytes := [] }
  | .endMarker => { c with inPacket := false }
  | .escMarker => { c with pendingUnescape := true }
  | .data b =>
    if c.inPacket then
      if c.bytes.length < P.maxPacketLen then
        { c with pendingUnescape := false, bytes := c.bytes ++ [dataOperand P c.pendingUnescape b] }
      else { c with inPacket := false, pendingUnescape := false }
    else c

/-- The dispatch condition (R74). -/
def Content.mayDispatch (c : Content P C) : Bool := c.inPacket && decide (0 < c.bytes.length) && c.hasSink

theorem State.content_mayDispatch (s : State P C) : s.content.mayDispatch = s.mayDispatch := by
  simp [content, Content.mayDispatch, mayDispatch]

/-- The events an instruction emits: END does under the dispatch condition, with the bytes assembled (R74, R75). -/
def Content.emits (c : Content P C) : Instr → List (Dispatch P C)
  | .endMarker =>
    if c.mayDispatch then
      [{ ctx := c.ctx, len := BitVec.ofNat P.cursorW c.bytes.length, data := c.bytes }]
    else []
  | .startMarker | .escMarker | .data _ => []

/-- The content after a list of instructions. -/
def Content.after (c : Content P C) (is : List Instr) : Content P C := is.foldl Content.next c

/-- The events of a list of instructions. -/
def Content.emitsAll : Content P C → List Instr → List (Dispatch P C)
  | _, [] => []
  | c, i :: is => c.emits i ++ (c.next i).emitsAll is

@[simp] theorem Content.after_nil (c : Content P C) : c.after [] = c := rfl

@[simp] theorem Content.after_cons (c : Content P C) (i : Instr) (is : List Instr) :
    c.after (i :: is) = (c.next i).after is := rfl

@[simp] theorem Content.after_append (c : Content P C) (is js : List Instr) :
    c.after (is ++ js) = (c.after is).after js := List.foldl_append

/-- A store appends to the assembled bytes. -/
theorem State.assembled_of_store {s t : State P C} {v : Byte} (hw : BufWf s) (room : s.cursor.toNat < P.maxPacketLen)
    (hm : t.mem = s.mem.update s.cursor.toNat v) (hc : t.cursor = s.cursor + 1) : t.assembled = s.assembled ++ [v] := by
  have below : ∀ a ∈ List.range s.cursor.toNat, (s.mem.update s.cursor.toNat v).cellAt a = s.mem.cellAt a := fun a ha => by
    rw [Memory.cellAt_update hw, if_neg (List.mem_range.mp ha).ne]
  rw [assembled, hm, hc, cursor_succ room, List.range_succ, List.map_append, List.map_congr_left below,
    List.map_singleton, Memory.cellAt_update hw, if_pos rfl, assembled]

/-- An instruction acts on the content as `Content.next` says. -/
theorem ExecCase.content_eq {i : Instr} {s t : State P C} (h : ExecCase s t i) (hw : BufWf s) :
    t.content = s.content.next i := by
  cases h with
  | start _ _ ht => simp [ht, State.content, State.assembled, Content.next]
  | store b opened room ht =>
    have room := hasRoom_eq_true.mp room
    have stored := State.assembled_of_store hw room (congrArg State.mem ht) (congrArg State.cursor ht)
    simp only [State.content, stored]
    simp [ht, Content.next, opened, room]
  | abort b opened full ht =>
    have full := hasRoom_eq_false.mp full
    subst ht
    simp [State.content, Content.next, opened, full, State.assembled]
  | idle b closed ht => simp [ht, State.content, Content.next, closed]
  | _ => subst_vars; rfl

/-- An instruction emits what `Content.emits` says. -/
theorem ExecCase.events_eq {i : Instr} {s t : State P C} (h : ExecCase s t i) :
    t.events = s.events ++ s.content.emits i := by
  cases h with
  | dispatch may _ ht =>
    rw [ht, Content.emits, if_pos (s.content_mayDispatch.trans may)]
    simp [State.content, State.assembled]
  | noDispatch may ht => simp [ht, Content.emits, s.content_mayDispatch, may]
  | _ => subst_vars; simp [Content.emits]

/-- An instruction completes in a live decoder whose CURSOR is one of a run (R105). -/
theorem exists_execFor {s : State P C} (hp : s.phase = .live) (hc : s.cursor.toNat ≤ P.maxPacketLen) (i : Instr) :
    ∃ t, execFor i s = .next t := by
  cases i with
  | startMarker =>
    obtain ⟨m, hm⟩ := Memory.clearBelow_completes s.mem hc
    simp [execFor, execStart, inLive_of_live hp, State.clearBuffer, hm]
  | endMarker =>
    by_cases hd : s.mayDispatch = true
    · simp [execFor, execEnd, inLive_of_live hp, hd, enterDispatch_spec hc]
    · simp [execFor, execEnd, inLive_of_live hp, hd]
  | escMarker => exact ⟨_, inLive_of_live hp _⟩
  | data b =>
    by_cases ho : s.inPacket = true
    · by_cases hr : s.hasRoom = true
      · have room : (s.setPendingUnescape false).hasRoom = true := hr
        simp [execFor, execData, inLive_of_live hp, ho, hr, storeByte_spec room]
      · simp [execFor, execData, inLive_of_live hp, ho, hr]
    · simp [execFor, execData, inLive_of_live hp, ho]

/-- A byte of a FEED runs its instruction, notes the byte and the end of the callback. -/
theorem feedByte_eq_next {b : Byte} {s t : State P C} :
    feedByte b s = .next t ↔
      ∃ u, execFor (decodeByte P b) s = .next u ∧ t = (u.accept b).complete (emitted s u) := by
  simp only [feedByte, andThen_eq_next, Host.Outcome.next.injEq, @eq_comm _ t]

/-- A stream keeps CURSOR in its range and the cells beyond it zero. -/
theorem feedBytes_fits {bs : List Byte} {s t : State P C} (h : feedBytes bs s = .next t) (hs : Fits s) : Fits t := by
  induction bs generalizing s with
  | nil => cases h; exact hs
  | cons b bs ih =>
    obtain ⟨r, hr, h⟩ := andThen_eq_next.mp h
    obtain ⟨u, hu, rfl⟩ := feedByte_eq_next.mp hr
    obtain ⟨hw, hc, hm⟩ := (execFor_cases hu).2.fits hs
    exact ih h ⟨hw, hc, hm⟩

/-- Every stream completes in a live decoder, and what it does is a run over contents (R102, R105). -/
theorem exists_feedBytes {s : State P C} (bs : List Byte) (hp : s.phase = .live) (hw : BufWf s)
    (hc : s.cursor.toNat ≤ P.maxPacketLen) :
    ∃ t, feedBytes bs s = .next t ∧ t.content = s.content.after (decodeAll P bs) ∧
      t.events = s.events ++ s.content.emitsAll (decodeAll P bs) := by
  induction bs generalizing s with
  | nil => exact ⟨s, rfl, rfl, (List.append_nil _).symm⟩
  | cons b bs ih =>
    obtain ⟨u, hu⟩ := exists_execFor hp hc (decodeByte P b)
    obtain ⟨-, hcase⟩ := execFor_cases hu
    obtain ⟨t, ht, hcontent, hevents⟩ := ih (s := (u.accept b).complete (emitted s u)) (hcase.phase_eq.trans hp)
      (hcase.bufWf hw) (hcase.cursor_le hc)
    have hr : ((u.accept b).complete (emitted s u)).content = s.content.next (decodeByte P b) := hcase.content_eq hw
    rw [hr] at hcontent hevents
    refine ⟨t, andThen_eq_next.mpr ⟨_, feedByte_eq_next.mpr ⟨u, hu, rfl⟩, ht⟩, hcontent, ?_⟩
    rw [hevents, State.complete_events, State.accept_events, hcase.events_eq, List.append_assoc]
    rfl

end Sys2Proof.Machine
end

section
/-! What an observer can tell (R22, R31): outside a packet the assembled bytes make no difference to any later event. -/

namespace Sys2Proof.Machine

variable {P : Params} {C : Type}

/-- The content without the bytes of a closed packet. -/
def Content.visible (c : Content P C) : Content P C := if c.inPacket then c else { c with bytes := [] }

/-- The relation of R31 is equality of the visible contents. -/
theorem sameView_iff {s t : State P C} : SameView s t ↔ s.content.visible = t.content.visible := by
  unfold SameView Content.visible State.content
  rw [← State.assembled_eq_iff]
  cases hs : s.inPacket <;> cases ht : t.inPacket <;> simp

theorem Content.visible_next (c : Content P C) (i : Instr) : (c.next i).visible = (c.visible.next i).visible := by
  cases ho : c.inPacket
  case true => simp [visible, ho]
  case false => cases i <;> simp [visible, next, ho]

theorem Content.emits_visible (c : Content P C) (i : Instr) : c.visible.emits i = c.emits i := by
  cases ho : c.inPacket
  case true => simp [visible, ho]
  case false => cases i <;> simp [visible, emits, mayDispatch, ho]

/-- Contents that look alike emit the same events for every list of instructions. -/
theorem Content.emitsAll_eq_of_visible {c d : Content P C} (is : List Instr) (h : c.visible = d.visible) :
    c.emitsAll is = d.emitsAll is := by
  induction is generalizing c d with
  | nil => rfl
  | cons i is ih =>
    have step : (c.next i).visible = (d.next i).visible := by rw [visible_next, h, ← visible_next]
    rw [emitsAll, emitsAll, ← emits_visible, h, emits_visible, ih step]

/-- Settles O47: the events of a stream are those of the visible content. -/
theorem hiddenStateIsUnobservable : Obligations.HiddenStateIsUnobservable := by
  intro P C s t bs hps hpt his hit hview
  have fs := ((inv_iff_of_live hps).mp his).1
  have ft := ((inv_iff_of_live hpt).mp hit).1
  obtain ⟨s', hs, -, es⟩ := exists_feedBytes bs hps fs.bufWf fs.cursor_le
  obtain ⟨t', ht, -, et⟩ := exists_feedBytes bs hpt ft.bufWf ft.cursor_le
  rw [← Content.emitsAll_eq_of_visible _ (sameView_iff.mp hview)] at et
  exact ⟨s', t', _, hs, ht, es, et⟩

end Sys2Proof.Machine
end

section
/-! Streams of well-formed instructions, the payload of PKT, and the states such streams reach (R30, R66). -/

namespace Sys2Proof.Machine

variable {P : Params} {C : Type}

/-- The decoder reads the encoded byte of a well-formed instruction as that instruction (R52, R65). -/
theorem decodeByte_encodeByte (hP : P.legal = true) {i : Instr} (hi : i.wellFormed P = true) :
    decodeByte P (encodeByte P i) = i := by
  have class_eq : classify P (encodeByte P i) = i.byteClass := by
    cases i with
    | startMarker => exact Laws.EncodedClass.startMarker P hP hi
    | endMarker => exact Laws.EncodedClass.endMarker P hP hi
    | escMarker => exact Laws.EncodedClass.escMarker P hP hi
    | data b => exact Laws.EncodedClass.data b P hP hi
  rw [decodeByte, class_eq]
  cases i <;> rfl

theorem decodeAll_encodeAll (hP : P.legal = true) {is : List Instr} (h : ∀ i ∈ is, i.wellFormed P = true) :
    decodeAll P (encodeAll P is) = is := by
  rw [decodeAll, encodeAll, List.map_map]
  exact (List.map_congr_left (g := id) fun i hi => decodeByte_encodeByte hP (h i hi)).trans (List.map_id is)

theorem wellFormed_data_iff {p : Params} {b : Byte} : (Instr.data b).wellFormed p = true ↔ p.isMarker b = false := by
  simp [Instr.wellFormed, Params.isMarker_eq_false_iff, and_assoc]

/-- PKT sends each payload byte in well-formed instructions. -/
theorem wellFormed_of_mem_payloadByte (hP : P.legal = true) {b : Byte} {i : Instr} (h : i ∈ payloadByte P b) :
    i.wellFormed P = true := by
  unfold payloadByte at h
  split at h
  case isTrue hb =>
    rcases List.mem_pair.mp h with rfl | rfl
    · rfl
    · have marker : b ∈ P.markers := Params.mem_markers.mpr (Params.isMarker_eq_true.mp hb)
      exact wellFormed_data_iff.mpr (classify_eq_data_iff.mp (classify_escaped_marker hP marker))
  case isFalse hb =>
    rw [List.mem_singleton.mp h]
    exact wellFormed_data_iff.mpr (Bool.eq_false_of_not_eq_true hb)

/-- In a packet with room and no escape pending, a payload byte is appended as it is (R63, R66). -/
theorem Content.after_payloadByte (hP : P.legal = true) {c : Content P C} (ho : c.inPacket = true)
    (hu : c.pendingUnescape = false) (hl : c.bytes.length < P.maxPacketLen) (b : Byte) :
    c.after (payloadByte P b) = { c with bytes := c.bytes ++ [b] } := by
  unfold payloadByte
  split
  case isTrue hb =>
    have marker : b ∈ P.markers := Params.mem_markers.mpr (Params.isMarker_eq_true.mp hb)
    simp [lit, next, ho, hu, hl, unescape_escaped_marker hP marker]
  case isFalse => simp [next, ho, hu, hl]

/-- A payload that fits is appended as it is. -/
theorem Content.after_payload (hP : P.legal = true) {c : Content P C} (ho : c.inPacket = true)
    (hu : c.pendingUnescape = false) (bytes : List Byte) (hl : c.bytes.length + bytes.length ≤ P.maxPacketLen) :
    c.after (bytes.flatMap (payloadByte P)) = { c with bytes := c.bytes ++ bytes } := by
  induction bytes generalizing c with
  | nil => simp
  | cons b bytes ih =>
    rw [List.length_cons] at hl
    rw [List.flatMap_cons, after_append, after_payloadByte hP ho hu (by omega),
      ih (c := { c with bytes := c.bytes ++ [b] }) ho hu (by simp; omega)]
    simp

/-- A stream to any content: the packet, then END to close it and ESC to leave an escape pending. -/
def reachingStream (P : Params) (inPacket pendingUnescape : Bool) (bytes : List Byte) : List Instr :=
  .startMarker :: (bytes.flatMap (payloadByte P) ++ (if inPacket then [] else [.endMarker]) ++
    (if pendingUnescape then [.escMarker] else []))

theorem wellFormed_of_mem_reachingStream (hP : P.legal = true) {inPacket pendingUnescape : Bool} {bytes : List Byte}
    {i : Instr} (h : i ∈ reachingStream P inPacket pendingUnescape bytes) : i.wellFormed P = true := by
  cases i with
  | data b =>
    obtain ⟨v, -, hv⟩ : ∃ v ∈ bytes, .data b ∈ payloadByte P v := by
      cases inPacket <;> cases pendingUnescape <;> simpa [reachingStream] using h
    exact wellFormed_of_mem_payloadByte hP hv
  | _ => rfl

theorem Content.after_reachingStream (hP : P.legal = true) {c : Content P C} (hu : c.pendingUnescape = false)
    (inPacket pendingUnescape : Bool) {bytes : List Byte} (hl : bytes.length ≤ P.maxPacketLen) :
    c.after (reachingStream P inPacket pendingUnescape bytes) =
      { c with inPacket := inPacket, pendingUnescape := pendingUnescape, bytes := bytes } := by
  have payload : (c.next .startMarker).after (bytes.flatMap (payloadByte P)) =
      { c with inPacket := true, bytes := bytes } :=
    after_payload (c := c.next .startMarker) hP rfl hu bytes (by simpa [next] using hl)
  rw [reachingStream, after_cons, after_append, after_append, payload]
  cases inPacket <;> cases pendingUnescape <;> simp [next, hu]

/-- Settles O46: `reachingStream` reaches the content, and from reset the content is all that BUF holds. -/
theorem everyCombinationIsReached : Obligations.EveryCombinationIsReached := by
  intro P C hasSink ctx inPacket pendingUnescape vs hP hl
  have start := ((inv_iff_of_live rfl).mp (inv_initial (P := P) hasSink ctx)).1
  obtain ⟨t, ht, content, -⟩ := exists_feedBytes (encodeAll P (reachingStream P inPacket pendingUnescape vs)) rfl
    start.bufWf start.cursor_le
  rw [decodeAll_encodeAll hP fun _ => wellFormed_of_mem_reachingStream hP,
    Content.after_reachingStream hP rfl inPacket pendingUnescape hl] at content
  have assembled : t.assembled = vs := congrArg Content.bytes content
  refine ⟨_, t, ht, congrArg Content.inPacket content, congrArg Content.pendingUnescape content, ?_, fun a => ?_⟩
  · rw [← assembled, State.length_assembled]
  · rw [(feedBytes_fits ht start).cellAt_eq, assembled]

end Sys2Proof.Machine
end

section
/-! Safety (R36, R105, R138): where CURSOR is in its range every byte and every clock edge of a live decoder has a next state,
and whatever else the environment does is answered by a next state or a refusal. -/

namespace Sys2Proof.Machine

variable {P : Params} {C : Type} {W : Nat}

theorem cursor_le_of_inv {s : State P C} (hs : Inv s) (hp : s.phase = .live) : s.cursor.toNat ≤ P.maxPacketLen :=
  (hs.2 hp).1

/-- Two operations in a row fault exactly when the first does or the second does after it. -/
theorem andThen_eq_fault {o : Result P C} {k : State P C → Result P C} {f : Fault} :
    andThen o k = .fault f ↔ o = .fault f ∨ ∃ s, o = .next s ∧ k s = .fault f := by
  cases o <;> simp

/-- An operation of the phase Live faults only in that phase. -/
theorem inLive_eq_fault {s : State P C} {o : Result P C} {f : Fault} :
    inLive s o = .fault f ↔ s.phase = .live ∧ o = .fault f := by
  cases h : s.phase <;> simp [inLive, h]

/-- A FEED completes in a live decoder outside a dispatch (R105). -/
theorem exists_feed {s : State P C} (hs : Inv s) (hp : s.phase = .live) (hd : s.dispatchPending = false)
    (chunk : List Byte) : ∃ t, feed chunk s = .next t := by
  cases chunk with
  | nil => exact ⟨s, by simp [feed, inLive_of_live hp, hd]⟩
  | cons b bs =>
    obtain ⟨u, hu⟩ := exists_execFor (s := s.setInputs (.feed bs :: s.inputs)) hp (cursor_le_of_inv hs hp) (decodeByte P b)
    have first : feed (b :: bs) s = feedByte b (s.setInputs (.feed bs :: s.inputs)) := by
      simp [feed, inLive_of_live hp, hd]
    exact ⟨_, first.trans (feedByte_eq_next.mpr ⟨u, hu, rfl⟩)⟩

/-- An input transfer completes in a live decoder, as its instruction does (R105, R124). -/
theorem exists_transfer {s : State P (BitVec W)} (hs : Inv s) (hp : s.phase = .live) (b : Byte) :
    ∃ t, transfer b s = .next t := by
  obtain ⟨u, hu⟩ := exists_execFor hp (cursor_le_of_inv hs hp) (decodeByte P b)
  exact ⟨_, andThen_eq_next.mpr ⟨u, hu, rfl⟩⟩

/-- Every edge completes in a live decoder, during a dispatch too (R135). -/
theorem exists_edge {s : State P (BitVec W)} (hs : Inv s) (hp : s.phase = .live) (p : Pins P) :
    ∃ t, edge p s = .next t := by
  simp only [edge, hp, liveEdge]
  split_ifs with rst pending ready valid
  · exact ⟨_, rfl⟩
  · exact ⟨_, rfl⟩
  · exact ⟨_, rfl⟩
  · exact exists_transfer hs hp p.inData
  · exact ⟨_, rfl⟩

/-- Outside the phase Live an edge resets, holds or refuses the byte (R111, R121, R157). -/
theorem edge_ne_fault_of_not_live {s : State P (BitVec W)} (hp : s.phase ≠ .live) (p : Pins P) (f : Fault) :
    edge p s ≠ .fault f := by
  unfold edge
  cases h : s.phase with
  | live => exact absurd h hp
  | unconstructed | destroyed => simp only; split_ifs <;> nofun

/-- Nothing the environment does faults where the invariant holds (R36, R138). -/
theorem takeInput_ne_fault {s : State P (BitVec W)} (hs : Inv s) (x : Input P (BitVec W)) (f : Fault) :
    takeInput x s ≠ .fault f := by
  intro h
  cases x with
  | create hasSink ctx => cases hp : s.phase <;> simp [takeInput, Machine.create, hp] at h
  | feed chunk =>
    obtain ⟨hp, -⟩ := inLive_eq_fault.mp h
    cases hd : s.dispatchPending with
    | true => simp [takeInput, feed, inLive_of_live hp, hd] at h
    | false =>
      obtain ⟨t, ht⟩ := exists_feed hs hp hd chunk
      cases ht.symm.trans h
  | destroy =>
    obtain ⟨-, h⟩ := inLive_eq_fault.mp h
    split_ifs at h
  | edge p =>
    obtain h | ⟨t, -, ht⟩ := andThen_eq_fault.mp h
    · by_cases hp : s.phase = .live
      · obtain ⟨t, ht⟩ := exists_edge hs hp p
        cases ht.symm.trans h
      · exact edge_ne_fault_of_not_live hp p f h
    · cases ht

theorem stepFor_ne_fault {s : State P (BitVec W)} (hs : Inv s) (f : Fault) : stepFor s ≠ .fault f := by
  cases hx : s.inputs with
  | nil => simp [stepFor, hx]
  | cons x rest => exact stepFor_of_inputs hx ▸ takeInput_ne_fault (s := s.setInputs rest) hs x f

/-- Settles O56: the instructions, the edges and the FEED steps of a live decoder complete, and so no input faults. -/
theorem nothingFaults : Obligations.NothingFaults := by
  refine fun s hs => ⟨stepFor_ne_fault hs, fun hp => ⟨fun i => ?_, fun p rest hx => ?_, fun hd chunk rest hx => ?_⟩⟩
  · exact exec_eq_execFor i s ▸ exists_execFor hp (cursor_le_of_inv hs hp) i
  · obtain ⟨t, ht⟩ := exists_edge (s := s.setInputs rest) hs hp p
    exact ⟨t.tick, by simp [step_eq_stepFor, stepFor_of_inputs hx, takeInput, ht]⟩
  · obtain ⟨t, ht⟩ := exists_feed (s := s.setInputs rest) hs hp hd chunk
    exact ⟨t, (stepFor_of_inputs hx).trans ht⟩

end Sys2Proof.Machine
end

section
/-! The decoder and the encoder (R50, R52, R54): the class of a byte under a legal parameter set, the two round trips, and the
opcode table. -/

namespace Sys2Proof

/-- START is tested first, so no constraint of R8 is needed. -/
theorem classify_eq_startMarker_iff {p : Params} {b : Byte} : classify p b = .startMarker ↔ b = p.startByte := by
  unfold classify
  split_ifs <;> simp_all

/-- An END byte is not read as START, which is tested before, since the two differ. -/
theorem classify_eq_endMarker_iff {p : Params} (hp : p.legal = true) {b : Byte} :
    classify p b = .endMarker ↔ b = p.endByte := by
  obtain ⟨startEnd, -, -⟩ := p.markers_distinct hp
  unfold classify
  split_ifs <;> simp_all

/-- An ESC byte is not read as START or END, which are tested before, since it differs from both. -/
theorem classify_eq_escMarker_iff {p : Params} (hp : p.legal = true) {b : Byte} :
    classify p b = .escMarker ↔ b = p.escByte := by
  obtain ⟨-, startEsc, endEsc⟩ := p.markers_distinct hp
  unfold classify
  split_ifs <;> simp_all

/-- Settles O3: each class has its own values, by the distinctness of the markers. -/
theorem classificationByValue : Obligations.ClassificationByValue :=
  fun _ hp _ =>
    ⟨classify_eq_startMarker_iff, classify_eq_endMarker_iff hp, classify_eq_escMarker_iff hp,
      classify_eq_data_iff.trans Params.isMarker_eq_false_iff⟩

/-- The instruction of a byte is written as that byte, whatever the parameters (R54). -/
theorem encodeByte_decodeByte (p : Params) (b : Byte) : encodeByte p (decodeByte p b) = b := by
  unfold decodeByte classify
  split_ifs <;> simp [encodeByte, *]

theorem encodeAll_decodeAll (p : Params) (bs : List Byte) : encodeAll p (decodeAll p bs) = bs := by
  rw [encodeAll, decodeAll, List.map_map]
  exact (List.map_congr_left (g := id) fun b _ => encodeByte_decodeByte p b).trans (List.map_id bs)

/-- The decoder gives a DATA byte only for a byte that is no marker (R52). -/
theorem wellFormed_decodeByte (p : Params) (b : Byte) : (decodeByte p b).wellFormed p = true := by
  unfold decodeByte
  cases h : classify p b with
  | startMarker | endMarker | escMarker => rfl
  | data => exact Machine.wellFormed_data_iff.mpr (classify_eq_data_iff.mp h)

theorem wellFormed_of_mem_decodeAll {p : Params} {bs : List Byte} {i : Instr} (h : i ∈ decodeAll p bs) :
    i.wellFormed p = true := by
  obtain ⟨b, -, rfl⟩ := List.mem_map.mp h
  exact wellFormed_decodeByte p b

/-- Settles O6: the two round trips of one byte, over the stream. -/
theorem streamRoundTrip : Obligations.StreamRoundTrip :=
  fun p hp =>
    ⟨fun _ his => Machine.decodeAll_encodeAll hp his,
      fun bs => ⟨encodeAll_decodeAll p bs, fun _ => wellFormed_of_mem_decodeAll⟩⟩

/-- Settles O4, by evaluating the decoder. -/
theorem specWordsDecode : Obligations.SpecWordsDecode := by
  unfold Obligations.SpecWordsDecode
  decide

/-- Settles O5, by evaluating the table on each of the 256 bytes. -/
theorem opcodeTableIsACover : Obligations.OpcodeTableIsACover := by
  unfold Obligations.OpcodeTableIsACover
  decide

end Sys2Proof
end

section
/-! The unescape transform bit by bit (R57, R58), and how a DATA byte comes to store a marker value (R83). -/

namespace Sys2Proof.Machine

/-- Unescaping clears the bits of the mask and leaves the others. -/
theorem getLsbD_unescape (p : Params) (b : Byte) (k : Nat) :
    (unescape p b).getLsbD k = (b.getLsbD k && !p.escMask.getLsbD k) := by
  by_cases hk : k < 8
  · simp [unescape, hk]
  · simp [unescape, BitVec.getLsbD_of_ge b k (Nat.le_of_not_lt hk)]

/-- The default mask is bit 5 alone. -/
theorem getLsbD_escMask_default (k : Nat) : Config.params.escMask.getLsbD k = decide (k = 5) := by
  rw [show Config.params.escMask = BitVec.twoPow 8 5 from rfl, BitVec.getLsbD_twoPow]
  simp [eq_comm]

theorem getLsbD_unescape_default (b : Byte) (k : Nat) :
    (unescape Config.params b).getLsbD k = (b.getLsbD k && decide (k ≠ 5)) := by
  rw [getLsbD_unescape, getLsbD_escMask_default, decide_not]

/-- Settles O8: bit 5 is the mask's only bit; the listed values by evaluation. -/
theorem unescapeClearsBitFive : Obligations.UnescapeClearsBitFive := ⟨getLsbD_unescape_default, by decide⟩

/-- A byte without bit 5 unescapes to itself. -/
theorem unescape_default_eq_self {b : Byte} (hb : b.getLsbD 5 = false) : unescape Config.params b = b := by
  refine BitVec.eq_of_getLsbD_eq fun k _ => ?_
  rw [getLsbD_unescape_default]
  by_cases hk : k = 5
  · rw [hk, hb, Bool.false_and]
  · simp [hk]

/-- A byte with bit 5 is the escaped form of what it unescapes to. -/
theorem unescape_default_or_mask {b : Byte} (hb : b.getLsbD 5 = true) :
    unescape Config.params b ||| Config.params.escMask = b := by
  refine BitVec.eq_of_getLsbD_eq fun k _ => ?_
  rw [BitVec.getLsbD_or, getLsbD_unescape_default, getLsbD_escMask_default]
  by_cases hk : k = 5
  · simp [hk, hb]
  · simp [hk]

/-- Settles O30: a DATA byte is no marker, so what it stores is one only if unescaping changed it. -/
theorem markerStoredOnlyByUnescape : Obligations.MarkerStoredOnlyByUnescape := by
  intro pending b hb hm
  have noMarker : Config.params.isMarker b = false := wellFormed_data_iff.mp hb
  cases pending with
  | false => exact absurd hm (by simp [noMarker])
  | true =>
    rw [dataOperand_pending] at hm ⊢
    cases h5 : b.getLsbD 5 with
    | false => exact absurd hm (by simp [unescape_default_eq_self h5, noMarker])
    | true => exact ⟨rfl, (unescape_default_or_mask h5).symm⟩

end Sys2Proof.Machine
end

section
/-! FEED (R50, R102 to R107): every byte of a stream is accepted, a chunk boundary makes no difference, and a placed
word is the next instruction. -/

namespace Sys2Proof.Machine

variable {P : Params} {C : Type}

/-- An instruction does not note the byte it came from. -/
theorem ExecCase.accepted_eq {i : Instr} {s t : State P C} (h : ExecCase s t i) : t.accepted = s.accepted := by
  rw [h.frame]

/-- A stream is accepted whole and in order; it changes neither the phase nor DISPATCH_PENDING. -/
theorem feedBytes_frame {bs : List Byte} {s t : State P C} (h : feedBytes bs s = .next t) :
    t.phase = s.phase ∧ t.dispatchPending = s.dispatchPending ∧ t.accepted = s.accepted ++ bs := by
  induction bs generalizing s with
  | nil => cases h; simp
  | cons b bs ih =>
    obtain ⟨r, hr, h⟩ := andThen_eq_next.mp h
    obtain ⟨u, hu, rfl⟩ := feedByte_eq_next.mp hr
    obtain ⟨-, hcase⟩ := execFor_cases hu
    obtain ⟨phase, pending, accepted⟩ := ih h
    exact ⟨phase.trans hcase.phase_eq, pending.trans hcase.dispatchPending_eq,
      by simp [accepted, hcase.accepted_eq]⟩

/-- Settles O44: a stream completes where CURSOR is in its range, and keeps what the invariant says outside a dispatch. -/
theorem feedAlwaysCompletes : Obligations.FeedAlwaysCompletes := by
  intro P C bs s hp hd hs
  have fits := ((inv_iff_of_live hp).mp hs).1
  obtain ⟨t, ht, -, -⟩ := exists_feedBytes bs hp fits.bufWf fits.cursor_le
  obtain ⟨phase, pending, accepted⟩ := feedBytes_frame ht
  have live : t.phase = .live := phase.trans hp
  have noDispatch : t.dispatchPending = false := pending.trans hd
  exact ⟨t, ht, live, (inv_iff_of_live live).mpr ⟨feedBytes_fits ht fits, by simp [noDispatch]⟩, accepted⟩

theorem andThen_assoc (o : Result P C) (j k : State P C → Result P C) :
    andThen (andThen o j) k = andThen o fun s => andThen (j s) k := by
  cases o <;> rfl

/-- FEED of two chunks is FEED of the one they make (R107). -/
theorem feedBytes_append (xs ys : List Byte) (s : State P C) :
    feedBytes (xs ++ ys) s = andThen (feedBytes xs s) (feedBytes ys) := by
  induction xs generalizing s with
  | nil => rfl
  | cons b xs ih =>
    rw [List.cons_append, feedBytes, feedBytes, andThen_assoc]
    exact congrArg (andThen (feedByte b s)) (funext ih)

/-- FEED of a nonempty chunk outside a dispatch takes its first byte and leaves the rest for later steps (R102). -/
theorem feed_cons {s : State P C} (hp : s.phase = .live) (hd : s.dispatchPending = false) (b : Byte) (bs : List Byte) :
    feed (b :: bs) s = feedByte b (s.setInputs (.feed bs :: s.inputs)) := by
  simp [feed, inLive_of_live hp, hd]

/-- An 8-bit table word is its one byte. -/
theorem tableWordBytes_eight (w : Nat) : tableWordBytes 8 w = [BitVec.ofNat 8 w] := by
  have low : BitVec.ofNat 8 (w % 2 ^ 8) = BitVec.ofNat 8 w := BitVec.eq_of_toNat_eq (by simp)
  exact congrArg (· :: []) low

theorem decodeTableWord_eight (w : Nat) : decodeTableWord 8 w = some (decodeByte Config.params (BitVec.ofNat 8 w)) := by
  rw [decodeTableWord, tableWordBytes_eight]
  rfl

/-- Settles O40: the placed word is a FEED of its one byte, which the next step takes. -/
theorem fetchWordRunsNext : Obligations.FetchWordRunsNext := by
  intro s w i hp hd hc hw
  obtain rfl : decodeByte Config.params (BitVec.ofNat 8 w) = i := Option.some.inj ((decodeTableWord_eight w).symm.trans hw)
  obtain ⟨t, ht⟩ := exists_execFor (s := s.setInputs (.feed [] :: s.inputs)) hp hc
    (decodeByte Config.params (BitVec.ofNat 8 w))
  refine ⟨t, (exec_eq_execFor _ _).trans ht, ?_⟩
  calc step (s.withFetchWord 8 w)
    _ = feed (tableWordBytes 8 w) s := rfl
    _ = feedByte (BitVec.ofNat 8 w) (s.setInputs (.feed [] :: s.inputs)) := by rw [tableWordBytes_eight, feed_cons hp hd]
    _ = .next ((t.accept (BitVec.ofNat 8 w)).complete (emitted s t)) := feedByte_eq_next.mpr ⟨t, ht, rfl⟩

end Sys2Proof.Machine
end

section
/-! The well-formed packet (R66, R114): PKT emits one event, at its END, with the payload as it was given. -/

namespace Sys2Proof.Machine

variable {P : Params} {C : Type}

theorem pkt_eq_reachingStream (p : List Byte) : pkt P p = reachingStream P false false p := by
  simp [pkt, reachingStream]

theorem Content.emitsAll_append (c : Content P C) (is js : List Instr) :
    c.emitsAll (is ++ js) = c.emitsAll is ++ (c.after is).emitsAll js := by
  induction is generalizing c with
  | nil => rfl
  | cons i is ih => rw [List.cons_append, emitsAll, ih, emitsAll, List.append_assoc, after_cons]

/-- Only END emits an event (R88). -/
theorem Content.emitsAll_eq_nil {c : Content P C} {is : List Instr} (h : .endMarker ∉ is) : c.emitsAll is = [] := by
  induction is generalizing c with
  | nil => rfl
  | cons i is ih =>
    obtain ⟨hi, his⟩ := List.ne_and_not_mem_of_not_mem_cons h
    have silent : c.emits i = [] := by
      cases i with
      | endMarker => exact absurd rfl hi
      | startMarker | escMarker | data b => rfl
    rw [emitsAll, silent, ih his, List.nil_append]

theorem endMarker_notMem_payload (bytes : List Byte) : .endMarker ∉ bytes.flatMap (payloadByte P) := by
  intro h
  obtain ⟨b, -, hb⟩ := List.mem_flatMap.mp h
  unfold payloadByte at hb
  split at hb <;> simp [lit] at hb

/-- PKT with a payload that fits emits the one event of its END. -/
theorem Content.emitsAll_pkt (hP : P.legal = true) {c : Content P C} (hu : c.pendingUnescape = false)
    (sink : c.hasSink = true) {p : List Byte} (pos : 1 ≤ p.length) (hl : p.length ≤ P.maxPacketLen) :
    c.emitsAll (pkt P p) = [{ ctx := c.ctx, len := BitVec.ofNat P.cursorW p.length, data := p }] := by
  have beforeEnd : c.after (.startMarker :: p.flatMap (payloadByte P)) = { c with inPacket := true, bytes := p } :=
    after_payload (c := c.next .startMarker) hP rfl hu p (by simpa [next] using hl)
  have silent : .endMarker ∉ Instr.startMarker :: p.flatMap (payloadByte P) := by
    simpa using endMarker_notMem_payload p
  have dispatches : ({ c with inPacket := true, bytes := p } : Content P C).mayDispatch = true := by
    simp [mayDispatch, sink, Nat.lt_of_succ_le pos]
  rw [pkt, ← List.cons_append, emitsAll_append, emitsAll_eq_nil silent, beforeEnd, List.nil_append, emitsAll, emitsAll,
    List.append_nil, emits, if_pos dispatches]

/-- Settles O45: the content after PKT and its one event; a split of the stream makes no difference. -/
theorem wellFormedPacketIsDelivered : Obligations.WellFormedPacketIsDelivered := by
  intro P C s p hP hp hw hc hu sink pos hl
  obtain ⟨t, ht, content, events⟩ := exists_feedBytes (encodeAll P (pkt P p)) hp hw hc
  have decoded : decodeAll P (encodeAll P (pkt P p)) = pkt P p :=
    decodeAll_encodeAll hP fun _ hi => wellFormed_of_mem_reachingStream hP (pkt_eq_reachingStream p ▸ hi)
  rw [decoded, Content.emitsAll_pkt hP hu sink pos hl] at events
  rw [decoded, pkt_eq_reachingStream, Content.after_reachingStream hP hu false false hl] at content
  have assembled : t.assembled = p := congrArg Content.bytes content
  refine ⟨t, events, congrArg Content.inPacket content, congrArg Content.pendingUnescape content, ?_,
    fun xs ys split => ?_⟩
  · rw [← assembled, State.length_assembled]
  · rw [← feedBytes_append, split, ht]

end Sys2Proof.Machine
end

section
/-! START (R67 to R72): what it leaves, that it forgets all of the past but the pending escape, and that a packet open before
it is lost. -/

namespace Sys2Proof.Machine

variable {P : Params} {C : Type}

/-- START completes where its cells exist: it clears BUF below CURSOR, and besides BUF only CURSOR and IN_PACKET are written
(R67, R68). -/
theorem execFor_start {s : State P C} (hp : s.phase = .live) (hc : s.cursor.toNat ≤ P.maxPacketLen) :
    ∃ m, s.mem.clearBelow P.maxPacketLen s.cursor.toNat = .ok m ∧
      execFor .startMarker s = .next { s with mem := m, cursor := 0, inPacket := true } := by
  obtain ⟨t, ht⟩ := exists_execFor hp hc .startMarker
  cases (execFor_cases ht).2 with
  | start m e hm => exact ⟨m, e, hm ▸ ht⟩

/-- In a state of a run START empties BUF (R20, R72). -/
theorem execFor_start_of_fits {s : State P C} (hp : s.phase = .live) (hs : Fits s) :
    execFor .startMarker s = .next { s with mem := [], cursor := 0, inPacket := true } := by
  obtain ⟨m, e, ht⟩ := execFor_start hp hs.cursor_le
  rw [ht, Memory.clearBelow_eq_nil hs.bufWf hs.mem_below e]

/-- With CURSOR 0 there is nothing to clear: START only opens a packet. -/
theorem execFor_start_of_cursor_zero {s : State P C} (hp : s.phase = .live) (hc : s.cursor = 0) :
    execFor .startMarker s = .next { s with inPacket := true } := by
  obtain ⟨m, e, ht⟩ := execFor_start hp (by simp [hc])
  have kept : m = s.mem := by simpa [hc, Memory.clearBelow, eq_comm] using e
  rw [ht, kept, ← hc]

/-- Settles O14. -/
theorem startOpensPacket : Obligations.StartOpensPacket := by
  intro s hp hw hc
  obtain ⟨m, e, ht⟩ := execFor_start hp hc
  obtain ⟨-, hm, cells⟩ := Memory.clearBelow_eq_ok hw e
  exact ⟨_, (exec_eq_execFor _ s).trans ht, rfl, rfl, rfl, rfl, cells, hm⟩

/-- Settles O16: after the first START, CURSOR is 0 and a packet is open already. -/
theorem startIsIdempotent : Obligations.StartIsIdempotent := by
  refine ⟨fun s hp _ hc => ?_, _, rfl, rfl, rfl, rfl, rfl⟩
  obtain ⟨m, -, ht⟩ := execFor_start hp hc
  refine ⟨_, (exec_eq_execFor _ s).trans ht, (exec_eq_execFor _ _).trans ?_⟩
  exact execFor_start_of_cursor_zero hp rfl

/-- A START keeps every cell at or beyond CURSOR. -/
theorem ExecCase.readCell_of_start {s t : State P C} (h : ExecCase s t .startMarker) (hw : BufWf s) {a : Nat}
    (ha : s.cursor.toNat ≤ a) : t.readCell a = s.readCell a := by
  cases h with
  | start m e ht =>
    obtain ⟨-, -, cells⟩ := Memory.clearBelow_eq_ok hw e
    have kept : m.cellAt a = s.mem.cellAt a := by rw [cells, if_neg (Nat.not_lt.mpr ha)]
    simp [ht, State.readCell, Memory.read, kept]

/-- A START writes BUF, CURSOR and IN_PACKET only. -/
theorem ExecCase.frame_of_start {s t : State P C} (h : ExecCase s t .startMarker) :
    t = { s with mem := t.mem, cursor := t.cursor, inPacket := t.inPacket } := by
  cases h with
  | start m _ ht => subst ht; rfl

/-- Settles O32. -/
theorem startFrame : Obligations.StartFrame := by
  intro s t hw h
  obtain ⟨-, hcase⟩ := exec_cases h
  exact ⟨fun _ => hcase.readCell_of_start hw, hcase.frame_of_start⟩

/-- After START the content is the constants and the pending escape, in an open, empty packet. -/
theorem State.content_next_start {s u : State P C} (sink : s.hasSink = u.hasSink) (ctx : s.ctx = u.ctx)
    (pending : s.pendingUnescape = u.pendingUnescape) :
    s.content.next .startMarker = u.content.next .startMarker := by
  simp [content, Content.next, sink, ctx, pending]

/-- START emits nothing, so a stream it begins emits what the content after it does. -/
theorem Content.emitsAll_start (c : Content P C) (bs : List Byte) :
    c.emitsAll (decodeAll P (P.startByte :: bs)) = (c.next .startMarker).emitsAll (decodeAll P bs) := by
  have start : decodeByte P P.startByte = .startMarker := decodeByte_eq_startMarker_iff.mpr rfl
  rw [decodeAll, List.map_cons, start]
  rfl

/-- Settles O15: the clear empties BUF, and the events of a stream are those of the content after START. -/
theorem startForgetsHistory : Obligations.StartForgetsHistory := by
  constructor
  · intro s hp hs
    have fits := ((inv_iff_of_live hp).mp hs).1
    exact ⟨_, (exec_eq_execFor _ s).trans (execFor_start_of_fits hp fits), rfl, rfl, Memory.cellAt_nil, rfl⟩
  · intro s u bs hps hpu his hiu sink ctx pending
    have fs := ((inv_iff_of_live hps).mp his).1
    have fu := ((inv_iff_of_live hpu).mp hiu).1
    obtain ⟨s', hs, -, es⟩ := exists_feedBytes (Config.params.startByte :: bs) hps fs.bufWf fs.cursor_le
    obtain ⟨u', hu, -, eu⟩ := exists_feedBytes (Config.params.startByte :: bs) hpu fu.bufWf fu.cursor_le
    rw [Content.emitsAll_start] at es eu
    rw [← State.content_next_start sink ctx pending] at eu
    exact ⟨s', u', _, hs, hu, es, eu⟩

/-- The stream of a one-byte packet whose byte needs no escape. -/
theorem encodeAll_pkt_singleton {p : Params} {b : Byte} (hb : p.isMarker b = false) :
    encodeAll p (pkt p [b]) = [p.startByte, b, p.endByte] := by
  simp [pkt, payloadByte, hb, encodeAll, encodeByte]

/-- Settles O17: the stream is PKT of the one byte, and what it delivers does not depend on a packet open before it. -/
theorem secondStartDiscards : Obligations.SecondStartDiscards := by
  intro s b hp hw hc _ hu sink hb
  obtain ⟨t, events, -, -, -, run⟩ := wellFormedPacketIsDelivered _ _ s [b] Config.params_legal hp hw hc hu sink
    (Nat.le_refl 1) (show 1 ≤ Config.params.maxPacketLen by decide)
  exact ⟨t, run [] _ (encodeAll_pkt_singleton hb).symm, events⟩

end Sys2Proof.Machine
end

section
/-! END (R73 to R78): when it dispatches, what it leaves alone, and what every event shows. -/

namespace Sys2Proof.Machine

variable {P : Params} {C : Type}

/-- Under the dispatch condition END emits the one event of R75 and closes the packet (R73, R74). -/
theorem execFor_end_of_mayDispatch {s : State P C} (hp : s.phase = .live) (hc : s.cursor.toNat ≤ P.maxPacketLen)
    (may : s.mayDispatch = true) :
    execFor .endMarker s = .next { s with
      inPacket := false
      events := s.events ++
        [{ ctx := s.ctx, len := s.cursor, data := (List.range s.cursor.toNat).map s.mem.cellAt }] } := by
  simp only [execFor, execEnd, inLive_of_live hp, may, if_true, enterDispatch_spec hc, andThen_next]
  rfl

/-- Otherwise END only closes the packet, wherever CURSOR stands (R77 to R80). -/
theorem execFor_end_of_not_mayDispatch {s : State P C} (hp : s.phase = .live) (may : s.mayDispatch = false) :
    execFor .endMarker s = .next { s with inPacket := false } := by
  simp only [execFor, execEnd, inLive_of_live hp, may, Bool.false_eq_true, if_false, andThen_next]
  rfl

/-- Settles O18: the two cases of the dispatch condition. -/
theorem endDispatchesOnCondition : Obligations.EndDispatchesOnCondition := by
  intro s hp hc
  rw [← mayDispatch_eq_true, Bool.not_eq_true, exec_eq_execFor]
  exact ⟨execFor_end_of_mayDispatch hp hc, execFor_end_of_not_mayDispatch hp⟩

/-- An END writes IN_PACKET and the trace only. -/
theorem ExecCase.frame_of_end {s t : State P C} (h : ExecCase s t .endMarker) :
    t = { s with inPacket := t.inPacket, events := t.events } := by
  cases h <;> subst_vars <;> rfl

/-- An ESC writes PENDING_UNESCAPE only. -/
theorem ExecCase.frame_of_esc {s t : State P C} (h : ExecCase s t .escMarker) :
    t = { s with pendingUnescape := t.pendingUnescape } := by
  cases h with
  | esc ht => subst ht; rfl

theorem State.readCell_congr {s t : State P C} (h : t.mem = s.mem) (a : Nat) : t.readCell a = s.readCell a := by
  rw [readCell, h, readCell]

/-- Settles O34: neither frame writes BUF. -/
theorem endAndEscFrame : Obligations.EndAndEscFrame := by
  constructor
  · intro s t h
    have frame := (exec_cases h).2.frame_of_end
    exact ⟨State.readCell_congr (by rw [frame]), frame⟩
  · intro s t h
    have frame := (exec_cases h).2.frame_of_esc
    exact ⟨State.readCell_congr (by rw [frame]), frame⟩

/-- Settles O19: END completes and closes the packet, and its frame holds the rest; the streams by running them. -/
theorem endKeepsPacketAndFlag : Obligations.EndKeepsPacketAndFlag := by
  refine ⟨fun s hp hc => ?_, ⟨_, rfl, rfl, rfl, rfl, rfl⟩, _, rfl, rfl, rfl, rfl, rfl⟩
  obtain ⟨t, ht⟩ := exists_execFor hp hc .endMarker
  obtain ⟨-, hcase⟩ := execFor_cases ht
  refine ⟨t, (exec_eq_execFor _ s).trans ht, ?_⟩
  rw [← hcase.closed_of_end]
  exact hcase.frame_of_end

/-- What a decoder with context `ctx` may show of a packet (R75): a length that is positive and fits the buffer, as many
bytes, and the context. -/
structure Dispatch.Shows (d : Dispatch P C) (ctx : C) : Prop where
  len_pos : 1 ≤ d.len.toNat
  len_le : d.len.toNat ≤ P.maxPacketLen
  data_length : d.data.length = d.len.toNat
  ctx_eq : d.ctx = ctx

/-- Every event an instruction adds is that of a nonempty packet in the buffer (R75, R78). -/
theorem ExecCase.shows_of_mem_events {i : Instr} {s t : State P C} (h : ExecCase s t i) {d : Dispatch P C}
    (hd : d ∈ t.events) : d ∈ s.events ∨ d.Shows s.ctx := by
  cases h with
  | dispatch may hc ht =>
    subst ht
    refine (List.mem_append.mp hd).imp_right fun hd => ?_
    obtain ⟨-, pos, -⟩ := mayDispatch_eq_true.mp may
    obtain rfl := List.mem_singleton.mp hd
    exact ⟨pos, hc, s.length_assembled, rfl⟩
  | _ => subst_vars; exact .inl hd

/-- Settles O20: with CURSOR 0 the dispatch condition fails, and it is all that lets an event be emitted; the streams by
running them. -/
theorem emptyPacketIsNotDispatched : Obligations.EmptyPacketIsNotDispatched := by
  refine ⟨fun s hp hc => ?_, fun i s t h d hd => ?_, ⟨_, rfl, rfl, rfl, rfl, rfl⟩, _, rfl, rfl, rfl, rfl, rfl⟩
  · have may : s.mayDispatch = false := by simp [State.mayDispatch, hc]
    exact (exec_eq_execFor _ s).trans (execFor_end_of_not_mayDispatch hp may)
  · exact ((exec_cases h).2.shows_of_mem_events hd).imp_right Dispatch.Shows.len_pos

end Sys2Proof.Machine
end

section
/-! Bounds on the output (R75, R115): one event for each START and each END accepted at most, and what each event shows. -/

namespace Sys2Proof.Machine

variable {P : Params} {C : Type} {W : Nat}

/-- An event is paid for by the packet it closes, and an open packet by the START that opened it. -/
theorem ExecCase.events_add_open_le {i : Instr} {s t : State P C} (h : ExecCase s t i) :
    t.events.length + (if t.inPacket then 1 else 0) ≤
      s.events.length + (if s.inPacket then 1 else 0) + [encodeByte P i].count P.startByte := by
  cases h with
  | start m _ ht => subst ht; simp [encodeByte]
  | dispatch may _ ht =>
    obtain ⟨opened, -, -⟩ := mayDispatch_eq_true.mp may
    subst ht
    simp [opened]
  | noDispatch _ ht | abort _ _ _ ht => subst ht; simp; omega
  | esc ht | idle _ _ ht | store _ _ _ ht => subst ht; exact Nat.le_add_right _ _

/-- Only an END adds an event, and it adds one at most. -/
theorem ExecCase.events_length_le {i : Instr} {s t : State P C} (h : ExecCase s t i) :
    t.events.length ≤ s.events.length + [encodeByte P i].count P.endByte := by
  cases h with
  | dispatch _ _ ht => subst ht; simp [encodeByte]
  | _ => subst_vars; exact Nat.le_add_right _ _

/-- An instruction keeps the bounds, with its byte noted as accepted. -/
theorem ExecCase.eventsBounded {i : Instr} {s t : State P C} (h : ExecCase s t i) (hs : EventsBounded s) :
    EventsBounded (t.accept (encodeByte P i)) := by
  intro hp
  obtain ⟨starts, ends, shown⟩ := hs (h.phase_eq.symm.trans hp)
  have accepted (b : Byte) : (t.accept (encodeByte P i)).accepted.count b =
      s.accepted.count b + [encodeByte P i].count b := by
    rw [State.accept_accepted, List.count_append, h.accepted_eq]
  have ctx : t.ctx = s.ctx := by rw [h.frame]
  rw [accepted, accepted]
  refine ⟨h.events_add_open_le.trans (Nat.add_le_add_right starts _),
    h.events_length_le.trans (Nat.add_le_add_right ends _), fun d hd => ?_⟩
  rw [State.accept_ctx, ctx]
  obtain hd | hd := h.shows_of_mem_events hd
  · exact shown d hd
  · exact ⟨hd.len_pos, hd.len_le, hd.data_length, hd.ctx_eq⟩

/-- The same for a byte of the stream and the instruction it decodes to. -/
theorem ExecCase.eventsBounded_of_byte {b : Byte} {s t : State P C} (h : ExecCase s t (decodeByte P b))
    (hs : EventsBounded s) : EventsBounded (t.accept b) := by
  have := h.eventsBounded hs
  rwa [encodeByte_decodeByte] at this

/-- Right after construction or reset nothing has been emitted and no packet is open. -/
theorem eventsBounded_of_blank {s : State P C} (he : s.events = []) (ho : s.inPacket = false) : EventsBounded s :=
  fun _ => by simp [he, ho]

theorem StepCase.eventsBounded {s t : State P (BitVec W)} (h : StepCase s t) (hs : EventsBounded s) :
    EventsBounded t := by
  cases h with
  | idle _ ht | feedEmpty _ _ _ _ ht | hold _ _ _ _ _ ht | leave _ _ _ _ _ _ _ ht => exact ht ▸ hs
  | create _ _ _ _ _ ht | reset _ _ _ _ ht => exact ht ▸ eventsBounded_of_blank rfl rfl
  | destroy _ _ _ _ ht => exact ht ▸ nofun
  | feedByte b bs rest u _ _ _ hu ht => exact ht ▸ hu.eventsBounded_of_byte hs
  | transfer p rest u _ _ _ _ _ hu ht => exact ht ▸ hu.eventsBounded_of_byte hs

/-- Settles O59: every case of a step keeps the bounds. -/
theorem stepKeepsEventBounds : Obligations.StepKeepsEventBounds :=
  ⟨eventsBounded_of_blank rfl rfl, fun _ _ hs h => (stepFor_stepCase h).eventsBounded hs,
    fun _ _ _ _ hs h => (stepFor_stepCase h).eventsBounded hs⟩

end Sys2Proof.Machine
end

section
/-! A full buffer (R94 to R98): the streams that fill it exactly, that go beyond it, and that begin again after the abort. -/

namespace Sys2Proof.Machine

variable {P : Params} {C : Type}

theorem decodeByte_of_plain {b : Byte} (h : P.isMarker b = false) : decodeByte P b = .data b := by
  rw [decodeByte, classify_eq_data_iff.mpr h]

theorem decodeAll_cons (p : Params) (b : Byte) (bs : List Byte) :
    decodeAll p (b :: bs) = decodeByte p b :: decodeAll p bs := rfl

theorem decodeAll_append (p : Params) (bs cs : List Byte) :
    decodeAll p (bs ++ cs) = decodeAll p bs ++ decodeAll p cs := List.map_append

/-- Bytes that need no escape are decoded as PKT sends them. -/
theorem decodeAll_of_plain {bs : List Byte} (h : ∀ b ∈ bs, P.isMarker b = false) :
    decodeAll P bs = bs.flatMap (payloadByte P) := by
  rw [decodeAll, ← List.flatMap_pure_eq_map]
  refine List.flatMap_congr fun b hb => ?_
  simp [payloadByte, h b hb, decodeByte_of_plain (h b hb)]

/-- The content with a packet open whose MAX_PACKET_LEN bytes are all `v`. -/
def Content.filled (c : Content P C) (v : Byte) : Content P C :=
  { c with inPacket := true, bytes := List.replicate P.maxPacketLen v }

theorem Content.length_filled (c : Content P C) (v : Byte) : (c.filled v).bytes.length = P.maxPacketLen :=
  List.length_replicate

/-- START and MAX_PACKET_LEN plain bytes fill the buffer, keep the packet open and emit nothing (R94). -/
theorem Content.after_filling (hP : P.legal = true) {c : Content P C} (hu : c.pendingUnescape = false) {v : Byte}
    (hv : P.isMarker v = false) :
    c.after (decodeAll P (P.startByte :: List.replicate P.maxPacketLen v)) = c.filled v ∧
    c.emitsAll (decodeAll P (P.startByte :: List.replicate P.maxPacketLen v)) = [] := by
  have plain : ∀ b ∈ List.replicate P.maxPacketLen v, P.isMarker b = false :=
    fun b hb => List.eq_of_mem_replicate hb ▸ hv
  have start : decodeByte P P.startByte = .startMarker := decodeByte_eq_startMarker_iff.mpr rfl
  rw [emitsAll_start, decodeAll_cons, start, decodeAll_of_plain plain]
  constructor
  · exact after_payload (c := c.next .startMarker) hP rfl hu _ (by simp [next])
  · exact emitsAll_eq_nil (endMarker_notMem_payload _)

/-- The content after an abort: the packet is closed, its bytes are kept, the escape is used up (R95, R96). -/
def Content.aborted (c : Content P C) : Content P C := { c with inPacket := false, pendingUnescape := false }

/-- A DATA byte at a full buffer aborts the packet. -/
theorem Content.next_data_of_full {c : Content P C} (ho : c.inPacket = true) (full : c.bytes.length = P.maxPacketLen)
    (b : Byte) : c.next (.data b) = c.aborted := by
  simp [next, aborted, ho, full]

/-- A stream that fills the buffer after reset and goes on: the rest of it is run over contents. -/
theorem streamGives_of_filled {v : Byte} (hv : Config.params.isMarker v = false) {rest : List Byte}
    {packets : List (List Byte)} {c : Content Config.params Config.Ctx} {n : Nat}
    (content : (State.reset.content.filled v).after (decodeAll Config.params rest) = c) (length : c.bytes.length = n)
    (events : (State.reset.content.filled v).emitsAll (decodeAll Config.params rest) =
      packets.map fun p => { ctx := Config.ctx, len := BitVec.ofNat _ p.length, data := p }) :
    StreamGives (Config.params.startByte :: List.replicate Config.maxPacketLen v ++ rest) packets c.inPacket
      c.pendingUnescape n := by
  obtain ⟨fills, silent⟩ := Content.after_filling Config.params_legal (c := State.reset.content) rfl hv
  obtain ⟨t, ht, hc, he⟩ := exists_feedBytes (s := State.reset)
    (Config.params.startByte :: List.replicate Config.maxPacketLen v ++ rest) rfl Memory.wf_nil (Nat.zero_le _)
  rw [decodeAll_append, Content.after_append, fills, content] at hc
  rw [decodeAll_append, Content.emitsAll_append, silent, fills, events] at he
  subst hc length
  exact ⟨t, ht, he, rfl, rfl, by simp [State.content]⟩

/-- With one byte more the packet is aborted, and the rest is run from there. -/
theorem streamGives_of_overfilled {v : Byte} (hv : Config.params.isMarker v = false) {rest : List Byte}
    {packets : List (List Byte)} {c : Content Config.params Config.Ctx} {n : Nat}
    (content : (State.reset.content.filled v).aborted.after (decodeAll Config.params rest) = c)
    (length : c.bytes.length = n)
    (events : (State.reset.content.filled v).aborted.emitsAll (decodeAll Config.params rest) =
      packets.map fun p => { ctx := Config.ctx, len := BitVec.ofNat _ p.length, data := p }) :
    StreamGives (Config.params.startByte :: List.replicate (Config.maxPacketLen + 1) v ++ rest) packets c.inPacket
      c.pendingUnescape n := by
  have decoded : decodeAll Config.params (v :: rest) = .data v :: decodeAll Config.params rest := by
    rw [decodeAll_cons, decodeByte_of_plain hv]
  have aborts := (State.reset.content.filled v).next_data_of_full rfl (Content.length_filled _ v) v
  rw [List.replicate_succ', ← List.cons_append, List.append_assoc, List.singleton_append]
  refine streamGives_of_filled hv ?_ length ?_
  · rw [decoded, Content.after_cons, aborts]
    exact content
  · rw [decoded, Content.emitsAll, aborts]
    exact events

/-- 512 plain bytes and END (R94). -/
theorem exactFill_dispatches {v : Byte} (hv : Config.params.isMarker v = false) :
    StreamGives (Config.params.startByte :: List.replicate Config.maxPacketLen v ++ [0x03])
      [List.replicate Config.maxPacketLen v] false false Config.maxPacketLen := by
  refine streamGives_of_filled hv rfl (State.reset.content.length_filled v) ?_
  have may : (State.reset.content.filled v).mayDispatch = true := by
    rw [Content.mayDispatch, Content.length_filled]; rfl
  show (State.reset.content.filled v).emits .endMarker ++ [] = _
  rw [Content.emits, if_pos may]
  rfl

/-- 512 plain bytes and an escaped one: the flag is used up by the byte that aborts (R96). -/
theorem escapedOverflow_aborts {v : Byte} (hv : Config.params.isMarker v = false) :
    StreamGives (Config.params.startByte :: List.replicate Config.maxPacketLen v ++ [0x10, 0x61, 0x03]) [] false false
      Config.maxPacketLen := by
  have decoded : decodeAll Config.params [0x10, 0x61, 0x03] = [.escMarker, .data 0x61, .endMarker] := rfl
  have aborts := ((State.reset.content.filled v).next .escMarker).next_data_of_full rfl
    (State.reset.content.length_filled v) 0x61
  refine streamGives_of_filled hv (c := (State.reset.content.filled v).aborted) ?_
    (State.reset.content.length_filled v) ?_
  · rw [decoded, Content.after_cons, Content.after_cons, aborts]
    rfl
  · rw [decoded, Content.emitsAll, Content.emitsAll, aborts]
    rfl

/-- Settles O28: the four streams fill the buffer; what follows is run from there, for the last up to its second packet. -/
theorem exactFillAndOverflowStreams : Obligations.ExactFillAndOverflowStreams :=
  fun v hv => ⟨exactFill_dispatches hv,
    streamGives_of_overfilled hv rfl (State.reset.content.length_filled v) rfl,
    escapedOverflow_aborts hv,
    streamGives_of_overfilled hv rfl rfl rfl⟩

end Sys2Proof.Machine
end

section
/-! Outside a packet (R77, R84, R90, R98): up to the next START only the escape flag is written. -/

namespace Sys2Proof.Machine

variable {P : Params} {C : Type}

theorem decodeByte_eq_escMarker_iff {p : Params} (hp : p.legal = true) {b : Byte} :
    decodeByte p b = .escMarker ↔ b = p.escByte := by
  rw [← classify_eq_escMarker_iff hp, decodeByte]
  cases classify p b <;> simp

theorem State.setPendingUnescape_self (s : State P C) : s.setPendingUnescape s.pendingUnescape = s := rfl

/-- In an idle decoder END and DATA change nothing, and ESC only sets its flag. -/
theorem execFor_of_idle {i : Instr} {s : State P C} (hp : s.phase = .live) (closed : s.inPacket = false)
    (hi : i ≠ .startMarker) :
    execFor i s = .next (s.setPendingUnescape (s.pendingUnescape || decide (i = .escMarker))) := by
  cases i with
  | startMarker => exact absurd rfl hi
  | endMarker =>
    rw [execFor_end_of_not_mayDispatch hp (by simp [State.mayDispatch, closed]), ← closed]
    simp [State.setPendingUnescape_self]
  | escMarker => simp [execFor, execEsc, inLive_of_live hp]
  | data b =>
    simp [execFor, execData, inLive_of_live hp, closed, State.setPendingUnescape_self]

/-- Settles O31: an idle decoder stays idle, byte by byte. -/
theorem idleIgnoresUntilStart : Obligations.IdleIgnoresUntilStart := by
  intro P C bs s hP hp closed noStart
  induction bs generalizing s with
  | nil => exact ⟨s, rfl, rfl, rfl, closed, rfl, by simp⟩
  | cons b bs ih =>
    obtain ⟨hb, hbs⟩ := List.ne_and_not_mem_of_not_mem_cons noStart
    have hi : decodeByte P b ≠ .startMarker := fun h => hb (decodeByte_eq_startMarker_iff.mp h).symm
    have hu := execFor_of_idle hp closed hi
    obtain ⟨t, ht, mem, cursor, idle, events, pending⟩ :=
      ih (s := ((s.setPendingUnescape (s.pendingUnescape || decide (decodeByte P b = .escMarker))).accept b).complete
        (emitted s _)) hp closed hbs
    refine ⟨t, andThen_eq_next.mpr ⟨_, feedByte_eq_next.mpr ⟨_, hu, rfl⟩, ht⟩, mem, cursor, idle, events, ?_⟩
    have esc : decide (decodeByte P b = .escMarker) = (P.escByte == b) := by
      rw [Bool.eq_iff_iff, decide_eq_true_iff, beq_iff_eq, decodeByte_eq_escMarker_iff hP, eq_comm]
    rw [pending, List.contains_cons, ← Bool.or_assoc, ← esc]
    rfl

end Sys2Proof.Machine
end

section
/-! The pending escape (R82 to R88): ESC sets PENDING_UNESCAPE, the other markers neither read nor write it, and only a DATA
byte in a packet and the reset clear it. -/

namespace Sys2Proof.Machine

variable {P : Params} {C : Type} {W : Nat}

/-- ESC completes in every live decoder, whatever BUF and CURSOR are, and writes its flag only (R82, R83, R84). -/
theorem execFor_esc {s : State P C} (hp : s.phase = .live) :
    execFor .escMarker s = .next { s with pendingUnescape := true } := inLive_of_live hp _

theorem State.setPendingUnescape_eq_self {s : State P C} {v : Bool} (hu : s.pendingUnescape = v) :
    s.setPendingUnescape v = s :=
  hu ▸ s.setPendingUnescape_self

/-- Settles O21. -/
theorem escSetsOnlyItsFlag : Obligations.EscSetsOnlyItsFlag :=
  fun s hp => (exec_eq_execFor _ s).trans (execFor_esc hp)

/-- ESC with an escape pending changes nothing (R85). -/
theorem exec_esc_of_pending {s : State} (hp : s.phase = .live) (hu : s.pendingUnescape = true) :
    exec .escMarker s = .next s :=
  (escSetsOnlyItsFlag s hp).trans (congrArg _ (State.setPendingUnescape_eq_self hu))

/-- Settles O22: the first ESC leaves an escape pending, so the second changes nothing; the stream by running it. -/
theorem escIsIdempotent : Obligations.EscIsIdempotent :=
  ⟨fun s hp => ⟨_, escSetsOnlyItsFlag s hp, exec_esc_of_pending hp rfl⟩, fun _ => exec_esc_of_pending,
    _, rfl, rfl, rfl, rfl, rfl⟩

/-- The clear of START does not depend on PENDING_UNESCAPE and keeps it. -/
theorem State.clearBuffer_setPendingUnescape (s : State P C) (v : Bool) :
    (s.setPendingUnescape v).clearBuffer = andThen s.clearBuffer fun t => .next (t.setPendingUnescape v) := by
  simp only [clearBuffer, setPendingUnescape_mem, setPendingUnescape_cursor]
  cases s.mem.clearBelow P.maxPacketLen s.cursor.toNat <;> rfl

/-- The dispatch of END does not depend on PENDING_UNESCAPE and keeps it. -/
theorem State.enterDispatch_setPendingUnescape (s : State P C) (v : Bool) :
    (s.setPendingUnescape v).enterDispatch = andThen s.enterDispatch fun t => .next (t.setPendingUnescape v) := by
  simp only [enterDispatch, setPendingUnescape_mem, setPendingUnescape_cursor]
  cases s.mem.readBelow P.maxPacketLen s.cursor.toNat <;> rfl

/-- START and END act in full whatever PENDING_UNESCAPE is, and keep it: writing the flag first or afterwards is the same
(R68, R76, R86). -/
theorem execFor_setPendingUnescape {i : Instr} (hi : i = .startMarker ∨ i = .endMarker) {s : State P C}
    (hp : s.phase = .live) (v : Bool) :
    execFor i (s.setPendingUnescape v) = andThen (execFor i s) fun t => .next (t.setPendingUnescape v) := by
  obtain rfl | rfl := hi
  · simp only [execFor, execStart, inLive_of_live hp, inLive_of_live (s := s.setPendingUnescape v) hp,
      State.clearBuffer_setPendingUnescape, andThen_assoc, andThen_next]
    rfl
  · have may : (s.setPendingUnescape v).mayDispatch = s.mayDispatch := rfl
    simp only [execFor, execEnd, inLive_of_live hp, inLive_of_live (s := s.setPendingUnescape v) hp, may]
    split
    · simp only [State.enterDispatch_setPendingUnescape, andThen_assoc, andThen_next]
      rfl
    · rfl

/-- With an escape pending START and END do what they do without one, and leave it pending (R86). -/
theorem exec_marker_of_pending {i : Instr} (hi : i = .startMarker ∨ i = .endMarker) {s : State} (hp : s.phase = .live)
    (hc : s.cursor.toNat ≤ Config.maxPacketLen) (hu : s.pendingUnescape = true) :
    ∃ t u, exec i s = .next t ∧ exec i { s with pendingUnescape := false } = .next u ∧
      t = { u with pendingUnescape := true } := by
  obtain ⟨u, plain⟩ := exists_execFor (s := s.setPendingUnescape false) hp hc i
  have pending := execFor_setPendingUnescape hi (s := s.setPendingUnescape false) hp true
  have restored : (s.setPendingUnescape false).setPendingUnescape true = s := State.setPendingUnescape_eq_self hu
  rw [restored, plain, andThen_next] at pending
  exact ⟨_, u, (exec_eq_execFor i s).trans pending, (exec_eq_execFor i _).trans plain, rfl⟩

/-- Settles O23: the two markers commute with the flag; the streams by running them. -/
theorem markersKeepPendingEscape : Obligations.MarkersKeepPendingEscape :=
  ⟨fun _ hp _ hc hu =>
      ⟨exec_marker_of_pending (.inl rfl) hp hc hu, exec_marker_of_pending (.inr rfl) hp hc hu⟩,
    ⟨_, rfl, rfl, rfl, rfl, rfl⟩, ⟨_, rfl, rfl, rfl, rfl, rfl⟩, _, rfl, rfl, rfl, rfl, rfl⟩

theorem decodeByte_byteClass (p : Params) (b : Byte) : (decodeByte p b).byteClass = classify p b := by
  rw [decodeByte]
  cases classify p b <;> rfl

/-- Of the instructions only a DATA byte in a packet uses a pending escape up (R88, R91, R96). -/
theorem ExecCase.escape_cleared_iff {i : Instr} {s t : State P C} (h : ExecCase s t i) (hu : s.pendingUnescape = true) :
    t.pendingUnescape = false ↔ i.byteClass = .data ∧ s.inPacket = true := by
  cases h with
  | store b opened _ ht | abort b opened _ ht => simp [ht, Instr.byteClass, opened]
  | idle b closed ht => simp [ht, hu, closed]
  | start _ _ ht | dispatch _ _ ht | noDispatch _ ht | esc ht => simp [ht, hu, Instr.byteClass]

/-- The same for a byte of the stream and the instruction it decodes to. -/
theorem ExecCase.escape_cleared_iff_of_byte {b : Byte} {s t : State P C} (h : ExecCase s t (decodeByte P b))
    (hu : s.pendingUnescape = true) : t.pendingUnescape = false ↔ classify P b = .data ∧ s.inPacket = true := by
  rw [h.escape_cleared_iff hu, decodeByte_byteClass]

/-- A step of a live decoder uses a pending escape up by a DATA byte in a packet, of a FEED or a transfer, or by reset. -/
theorem StepCase.escape_cleared_iff {s t : State P (BitVec W)} (h : StepCase s t) (hp : s.phase = .live)
    (hu : s.pendingUnescape = true) :
    t.pendingUnescape = false ↔
      ∃ x rest, s.inputs = x :: rest ∧
        ((∃ b bs, x = .feed (b :: bs) ∧ classify P b = .data ∧ s.inPacket = true) ∨
         (∃ p, x = .edge p ∧ (p.rst = true ∨
           (s.dispatchPending = false ∧ p.inValid = true ∧ classify P p.inData = .data ∧ s.inPacket = true)))) := by
  cases h with
  | feedByte b bs rest u hx _ _ huse ht =>
    have used : t.pendingUnescape = false ↔ classify P b = .data ∧ s.inPacket = true :=
      ht ▸ huse.escape_cleared_iff_of_byte hu
    simp [hx, used]
  | transfer p rest u hx hr hv _ hd huse ht =>
    have used : t.pendingUnescape = false ↔ classify P p.inData = .data ∧ s.inPacket = true :=
      ht ▸ huse.escape_cleared_iff_of_byte hu
    simp [hx, hr, hv, hd, used]
  | reset p rest hx hr ht => simp [hx, hr, ht]
  | hold p rest hx hr idle ht =>
    obtain ⟨hd, -⟩ | ⟨-, hv⟩ := idle hp
    · simp [hx, hr, hd, ht, hu]
    · simp [hx, hr, hv, ht, hu]
  | leave p rest hx hr _ hd _ ht => simp [hx, hr, hd, ht, hu, State.leaveDispatch]
  | create _ _ _ _ unconstructed _ => simp [hp] at unconstructed
  | idle hx ht | feedEmpty _ hx _ _ ht | destroy _ hx _ _ ht => simp [hx, ht, hu]

/-- Settles O24: of the cases of a step a DATA byte in a packet and the reset clear the flag. -/
theorem pendingEscapeClearedInTwoWays : Obligations.PendingEscapeClearedInTwoWays :=
  fun _ _ hp hu h => (stepFor_stepCase h).escape_cleared_iff hp hu

end Sys2Proof.Machine
end

section
/-! DATA (R89 to R97): dropped outside a packet, stored while there is room, the end of the packet when there is none. -/

namespace Sys2Proof.Machine

variable {P : Params} {C : Type}

/-- `exec_eq_execFor` as an equation of the two functions. -/
theorem exec_eq_execFor_default : exec = execFor := funext₂ exec_eq_execFor

/-- Outside a packet DATA changes nothing (R90). -/
theorem execFor_data_of_idle {s : State P C} (hp : s.phase = .live) (closed : s.inPacket = false) (b : Byte) :
    execFor (.data b) s = .next s := by
  have dropped := execFor_of_idle hp closed (i := .data b) nofun
  rwa [State.setPendingUnescape_eq_self (by simp)] at dropped

/-- In a packet with room DATA stores its operand at CURSOR, counts it and uses the pending escape up (R91, R92). -/
theorem execFor_data_of_room {s : State P C} (hp : s.phase = .live) (opened : s.inPacket = true)
    (room : s.hasRoom = true) (b : Byte) :
    execFor (.data b) s = .next { s with
      mem := s.mem.update s.cursor.toNat (dataOperand P s.pendingUnescape b)
      cursor := s.cursor + 1
      pendingUnescape := false } := by
  have room' : (s.setPendingUnescape false).hasRoom = true := room
  rw [execFor, execData, inLive_of_live hp, if_pos opened, if_pos room, storeByte_spec room']
  rfl

/-- In a full buffer DATA ends the packet and uses the pending escape up (R95, R96). -/
theorem execFor_data_of_full {s : State P C} (hp : s.phase = .live) (opened : s.inPacket = true)
    (full : s.hasRoom = false) (b : Byte) :
    execFor (.data b) s = .next { s with inPacket := false, pendingUnescape := false } := by
  rw [execFor, execData, inLive_of_live hp, if_pos opened, if_neg (by simp [full])]
  rfl

/-- Settles O25; the stream by running it. -/
theorem idleDataIsDropped : Obligations.IdleDataIsDropped :=
  ⟨fun s b hp closed => (exec_eq_execFor _ s).trans (execFor_data_of_idle hp closed b), _, rfl, rfl, rfl, rfl, rfl⟩

/-- Settles O27. -/
theorem overflowAborts : Obligations.OverflowAborts := fun s b hp opened full =>
  (exec_eq_execFor _ s).trans (execFor_data_of_full hp opened (hasRoom_eq_false.mpr full) b)

/-- Settles O26: the store is one update of BUF below the capacity, where CURSOR + 1 does not wrap. -/
theorem dataIsStored : Obligations.DataIsStored := by
  unfold Obligations.DataIsStored
  intro Stores
  have general (P : Params) (C : Type) : Stores (P := P) (C := C) execFor := fun s b hp hw opened hc =>
    ⟨_, execFor_data_of_room hp opened (hasRoom_eq_true.mpr hc) b, fun a => Memory.cellAt_update hw _ a _,
      Memory.update_wf hw hc _, cursor_succ hc, opened, rfl, rfl⟩
  exact ⟨exec_eq_execFor_default ▸ general _ _, general⟩

/-- Settles O29: the byte goes to the last cell, and the full packet meets the dispatch condition. -/
theorem exactFillStaysOpen : Obligations.ExactFillStaysOpen := by
  unfold Obligations.ExactFillStaysOpen
  intro Fills
  have general (P : Params) (C : Type) (hP : P.legal = true) : Fills (P := P) (C := C) execFor := by
    intro s b hp hw opened sink hc
    obtain ⟨-, pos, -, -⟩ := Params.legal_iff.mp hP
    have room : s.cursor.toNat < P.maxPacketLen := by omega
    have filled : (s.cursor + 1).toNat = P.maxPacketLen := by rw [cursor_succ room, hc, Nat.sub_add_cancel pos]
    refine ⟨_, _, execFor_data_of_room hp opened (hasRoom_eq_true.mpr room) b, opened, filled, ?_,
      execFor_end_of_mayDispatch hp filled.le (mayDispatch_eq_true.mpr ⟨opened, pos.trans_eq filled.symm, sink⟩),
      _, rfl, filled, ?_⟩
    · rw [Memory.cellAt_update hw, if_pos hc.symm]
    · rw [List.length_map, List.length_range, filled]
  exact ⟨exec_eq_execFor_default ▸ general _ _ Config.params_legal, general⟩

/-- A DATA byte keeps every cell but the one it is stored in. -/
theorem ExecCase.readCell_of_data {b : Byte} {s t : State P C} (h : ExecCase s t (.data b)) (hw : BufWf s) {a : Nat}
    (ha : ¬ (s.inPacket = true ∧ s.hasRoom = true ∧ a = s.storeIndex)) : t.readCell a = s.readCell a := by
  cases h with
  | store b opened room ht =>
    have other : a ≠ s.cursor.toNat := fun e => ha ⟨opened, room, e⟩
    simp [ht, State.readCell, Memory.read, Memory.cellAt_update hw, other]
  | idle b _ ht | abort b _ _ ht => exact State.readCell_congr (by rw [ht]) a

/-- A DATA byte writes BUF, CURSOR and the two flags only. -/
theorem ExecCase.frame_of_data {b : Byte} {s t : State P C} (h : ExecCase s t (.data b)) :
    t = { s with
      mem := t.mem, cursor := t.cursor, inPacket := t.inPacket, pendingUnescape := t.pendingUnescape } := by
  cases h <;> subst_vars <;> rfl

/-- Settles O33. -/
theorem dataFrame : Obligations.DataFrame := by
  intro s t b hw h
  obtain ⟨-, hcase⟩ := exec_cases h
  exact ⟨fun _ => hcase.readCell_of_data hw, hcase.frame_of_data⟩

end Sys2Proof.Machine
end

section
/-! The host operations of level T (R102 to R111): where they are refused, the byte a FEED step takes, the empty FEED. -/

namespace Sys2Proof.Machine

variable {P : Params} {C : Type} {W : Nat}

/-- An operation of the phase Live before CREATE (R25, R111). -/
theorem inLive_of_unconstructed {s : State P C} (h : s.phase = .unconstructed) (o : Result P C) :
    inLive s o = .refused .beforeCreate := by
  simp [inLive, h]

/-- An operation of the phase Live after DESTROY (R25, R111). -/
theorem inLive_of_destroyed {s : State P C} (h : s.phase = .destroyed) (o : Result P C) :
    inLive s o = .refused .afterDestroy := by
  simp [inLive, h]

/-- Every instruction is an operation of the phase Live. -/
theorem exists_execFor_eq_inLive (i : Instr) (s : State P C) : ∃ o, execFor i s = inLive s o := by
  cases i <;> exact ⟨_, rfl⟩

/-- So is an edge out of reset that offers a byte (R157). -/
theorem edge_of_offer {p : Pins P} (hr : p.rst = false) (hv : p.inValid = true) (s : State P (BitVec W)) :
    edge p s = inLive s (liveEdge p s) := by
  cases h : s.phase <;> simp [edge, inLive, h, hr, hv]

/-- Where the operations of the phase Live are refused, so are every instruction, FEED, DESTROY and an offered byte. -/
theorem use_refused {s : State} {r : Refusal} (refuses : ∀ o, inLive s o = .refused r) (rest : List Input) :
    (∀ i, exec i s = .refused r) ∧
    (∀ chunk, s.inputs = .feed chunk :: rest → step s = .refused r) ∧
    (s.inputs = .destroy :: rest → step s = .refused r) ∧
    (∀ p : Pins, s.inputs = .edge p :: rest → p.rst = false → p.inValid = true → step s = .refused r) := by
  refine ⟨fun i => ?_, fun chunk hx => ?_, fun hx => ?_, fun p hx hr hv => ?_⟩
  · obtain ⟨o, ho⟩ := exists_execFor_eq_inLive i s
    rw [exec_eq_execFor, ho, refuses]
  · exact (stepFor_of_inputs hx).trans (refuses _)
  · exact (stepFor_of_inputs hx).trans (refuses _)
  · have offered : edge p (s.setInputs rest) = .refused r := (edge_of_offer hr hv _).trans (refuses _)
    rw [step_eq_stepFor, stepFor_of_inputs hx, takeInput, offered, andThen_refused]

/-- Settles O11: outside the phase Live `inLive` refuses, and each of the operations goes through it. -/
theorem useOutsideLifeIsRefused : Obligations.UseOutsideLifeIsRefused := fun _ rest =>
  ⟨fun hp => use_refused (inLive_of_unconstructed hp) rest, fun hp => use_refused (inLive_of_destroyed hp) rest⟩

/-- Settles O12: both operations test DISPATCH_PENDING first. -/
theorem reentrantUseIsRefused : Obligations.ReentrantUseIsRefused := by
  refine fun s rest hp hd => ⟨fun chunk hx => ?_, fun hx => ?_⟩
  · simp [step_eq_stepFor, stepFor_of_inputs hx, takeInput, feed, inLive_of_live, hp, hd]
  · simp [step_eq_stepFor, stepFor_of_inputs hx, takeInput, destroy, inLive_of_live, hp, hd]

/-- A FEED step takes the first byte of the chunk and leaves the rest for later steps (R102). -/
theorem stepFor_feed_cons {s : State P (BitVec W)} {b : Byte} {bs : List Byte} {rest : List (Input P (BitVec W))}
    (hp : s.phase = .live) (hd : s.dispatchPending = false) (hx : s.inputs = .feed (b :: bs) :: rest) :
    stepFor s = feedByte b (s.setInputs (.feed bs :: rest)) :=
  (stepFor_of_inputs hx).trans (feed_cons (s := s.setInputs rest) hp hd b bs)

/-- The step that ends a FEED only drops the empty chunk (R106). -/
theorem stepFor_feed_nil {s : State P (BitVec W)} {rest : List (Input P (BitVec W))} (hp : s.phase = .live)
    (hd : s.dispatchPending = false) (hx : s.inputs = .feed [] :: rest) : stepFor s = .next (s.setInputs rest) := by
  simp [stepFor_of_inputs hx, takeInput, feed, inLive_of_live, hp, hd]

/-- Settles O39. -/
theorem feedStepRunsDecoded : Obligations.FeedStepRunsDecoded := by
  intro s b bs rest i hp hd hx hi
  obtain rfl : decodeByte Config.params b = i := congrArg Prod.fst (Except.ok.inj hi)
  rw [step_eq_stepFor, stepFor_feed_cons hp hd hx]
  simp only [exec_eq_execFor]
  refine ⟨fun t ht => feedByte_eq_next.mpr ⟨t, ht, rfl⟩, fun f hf => ?_⟩
  exact andThen_eq_fault.mpr (.inl hf)

/-- Settles O41. -/
theorem emptyFeedDoesNothing : Obligations.EmptyFeedDoesNothing := fun _ _ hp hd hx => stepFor_feed_nil hp hd hx

/-- Settles O43. -/
theorem chunkBoundariesCarryNoMeaning : Obligations.ChunkBoundariesCarryNoMeaning :=
  fun _ _ xs ys s => feedBytes_append xs ys s

end Sys2Proof.Machine
end

section
/-! The surroundings of an instruction: the inputs to come, the notes of the run and DISPATCH_PENDING, which it neither reads
nor writes. So the steps of a FEED are the fold of the one-byte step (R102, R118). -/

namespace Sys2Proof.Machine

variable {P : Params} {C : Type}

/-- The ways of an instruction are all of them possible in phase Live: `execFor_cases` is an equivalence. -/
theorem ExecCase.execFor_eq {i : Instr} {s t : State P C} (h : ExecCase s t i) (hp : s.phase = .live) :
    execFor i s = .next t := by
  cases h with
  | start m e ht =>
    subst ht
    simp only [execFor, execStart, inLive_of_live hp, State.clearBuffer, e, orFault_ok, andThen_next]
    rfl
  | dispatch may hc ht => exact ht ▸ execFor_end_of_mayDispatch hp hc may
  | noDispatch may ht => exact ht ▸ execFor_end_of_not_mayDispatch hp may
  | esc ht => exact ht ▸ execFor_esc hp
  | idle b closed ht => exact ht ▸ execFor_data_of_idle hp closed b
  | store b opened room ht => exact ht ▸ execFor_data_of_room hp opened room b
  | abort b opened full ht => exact ht ▸ execFor_data_of_full hp opened full b

/-- The registers, BUF and the trace of `s`, with everything an instruction neither reads nor writes taken from `r`. -/
def State.withSurroundings (s r : State P C) : State P C :=
  { s with
    dispatchPending := r.dispatchPending, inputs := r.inputs, accepted := r.accepted, completed := r.completed
    cycle := r.cycle }

/-- An instruction does the same in any surroundings. -/
theorem ExecCase.withSurroundings {i : Instr} {s t : State P C} (h : ExecCase s t i) (r : State P C) :
    ExecCase (s.withSurroundings r) (t.withSurroundings r) i := by
  cases h with
  | start m e ht => exact .start m e (ht ▸ rfl)
  | dispatch may hc ht => exact .dispatch may hc (ht ▸ rfl)
  | noDispatch may ht => exact .noDispatch may (ht ▸ rfl)
  | esc ht => exact .esc (ht ▸ rfl)
  | idle b closed ht => exact .idle b closed (ht ▸ rfl)
  | store b opened room ht => exact .store b opened room (ht ▸ rfl)
  | abort b opened full ht => exact .abort b opened full (ht ▸ rfl)

theorem ExecCase.setInputs {i : Instr} {s t : State P C} (h : ExecCase s t i) (xs : List (Input P C)) :
    ExecCase (s.setInputs xs) (t.setInputs xs) i := by
  have kept : t.withSurroundings (s.setInputs xs) = t.setInputs xs := by rw [h.frame]; rfl
  exact kept ▸ h.withSurroundings (s.setInputs xs)

/-- A byte of a FEED does the same whatever the environment does afterwards, and does not change that. -/
theorem feedByte_setInputs {b : Byte} {s t : State P C} (h : feedByte b s = .next t) (xs : List (Input P C)) :
    feedByte b (s.setInputs xs) = .next (t.setInputs xs) := by
  obtain ⟨u, hu, rfl⟩ := feedByte_eq_next.mp h
  obtain ⟨hp, hcase⟩ := execFor_cases hu
  exact feedByte_eq_next.mpr ⟨_, (hcase.setInputs xs).execFor_eq hp, rfl⟩

theorem feedByte_inputs {b : Byte} {s t : State P C} (h : feedByte b s = .next t) : t.inputs = s.inputs := by
  obtain ⟨u, hu, rfl⟩ := feedByte_eq_next.mp h
  rw [State.complete_inputs, State.accept_inputs, (execFor_cases hu).2.frame]

/-- Putting back the inputs a state has changes nothing. -/
theorem State.setInputs_eq_self {s : State P C} {xs : List (Input P C)} (h : s.inputs = xs) : s.setInputs xs = s :=
  h ▸ rfl

/-- Where the fold over a chunk ends in a state, so does the machine, by a step for each byte and one for the end of the
chunk. -/
theorem core_run_feed {bs : List Byte} {s t : State} {rest : List Input} (hp : s.phase = .live)
    (hd : s.dispatchPending = false) (hx : s.inputs = .feed bs :: rest)
    (h : feedBytes bs (s.setInputs rest) = .next t) : Sys2Proof.core.run (bs.length + 1) s = .next t := by
  induction bs generalizing s with
  | nil =>
    cases h
    exact core_run_next (stepFor_feed_nil hp hd hx) 0
  | cons b bs ih =>
    obtain ⟨r, hr, h⟩ := andThen_eq_next.mp h
    have first : step s = .next (r.setInputs (.feed bs :: rest)) :=
      (stepFor_feed_cons hp hd hx).trans (feedByte_setInputs hr _)
    have one : feedBytes [b] (s.setInputs rest) = .next r := andThen_eq_next.mpr ⟨r, hr, rfl⟩
    obtain ⟨phase, pending, -⟩ := feedBytes_frame one
    have back : (r.setInputs (.feed bs :: rest)).setInputs rest = r := State.setInputs_eq_self (feedByte_inputs hr)
    rw [List.length_cons, core_run_next first]
    exact ih (phase.trans hp) (pending.trans hd) rfl (back ▸ h)

/-- Settles O42: the fold completes where the invariant holds, and the machine's steps give its state. -/
theorem feedIsTheFold : Obligations.FeedIsTheFold := by
  intro bs s rest hp hd hs hx
  have fits := ((inv_iff_of_live hp).mp hs).1
  obtain ⟨t, ht, -, -⟩ := exists_feedBytes (s := s.setInputs rest) bs hp fits.bufWf fits.cursor_le
  exact ⟨t, core_run_feed hp hd hx ht, ht⟩

end Sys2Proof.Machine
end

section
/-! Level P refines level T (R136): the block is where the run of the accepted bytes is, and the dispatch a sink reads at the
ports is the event that was emitted. -/

namespace Sys2Proof.Machine

variable {P : Params} {C : Type} {W : Nat}

/-- The run of the accepted bytes from reset ends in the registers, BUF and the trace of `s`. -/
def State.IsRun (s : State P C) : Prop :=
  ∃ r, feedBytes s.accepted (State.initial s.hasSink s.ctx) = .next r ∧ s.withSurroundings r = r

/-- A stream keeps HAS_SINK and CTX. -/
theorem feedBytes_constants {bs : List Byte} {s t : State P C} (h : feedBytes bs s = .next t) :
    t.hasSink = s.hasSink ∧ t.ctx = s.ctx := by
  induction bs generalizing s with
  | nil => cases h; exact ⟨rfl, rfl⟩
  | cons b bs ih =>
    obtain ⟨r, hr, h⟩ := andThen_eq_next.mp h
    obtain ⟨u, hu, rfl⟩ := feedByte_eq_next.mp hr
    obtain ⟨sink, ctx⟩ := ih h
    have frame := (execFor_cases hu).2.frame
    exact ⟨sink.trans (by rw [frame]; rfl), ctx.trans (by rw [frame]; rfl)⟩

/-- In phase Live a refining state is a run: the constants and the phase agree anyway. -/
theorem Refines.isRun {s : State P (BitVec W)} (h : Refines s) (hp : s.phase = .live) : s.IsRun := by
  obtain ⟨⟨r, hr, mem, cursor, inPacket, pending, events⟩, -⟩ := h hp
  obtain ⟨sink, ctx⟩ := feedBytes_constants hr
  obtain ⟨phase, -, -⟩ := feedBytes_frame hr
  have sink : s.hasSink = r.hasSink := sink.symm
  have ctx : s.ctx = r.ctx := ctx.symm
  have phase : s.phase = r.phase := hp.trans phase.symm
  refine ⟨r, hr, ?_⟩
  rw [State.withSurroundings, ← mem, ← cursor, ← inPacket, ← pending, ← events, sink, ctx, phase]

theorem State.IsRun.refines {s : State P (BitVec W)} (h : s.IsRun)
    (ended : s.events = s.completed ++ pendingDispatches s) : Refines s := by
  obtain ⟨r, hr, agrees⟩ := h
  exact fun _ => ⟨⟨r, hr, (congrArg State.mem agrees).symm, (congrArg State.cursor agrees).symm,
    (congrArg State.inPacket agrees).symm, (congrArg State.pendingUnescape agrees).symm,
    (congrArg State.events agrees).symm⟩, ended⟩

/-- A byte that runs in the block runs at the end of the run, which then has it as its last byte. -/
theorem ExecCase.isRun {b : Byte} {s u : State P C} (h : ExecCase s u (decodeByte P b)) (hp : s.phase = .live)
    (hs : s.IsRun) : (u.accept b).IsRun := by
  obtain ⟨r, hr, agrees⟩ := hs
  have live : r.phase = .live := (congrArg State.phase agrees).symm.trans hp
  have hu : execFor (decodeByte P b) r = .next (u.withSurroundings r) :=
    (agrees ▸ h.withSurroundings r).execFor_eq live
  have last : feedBytes [b] r = .next (((u.withSurroundings r).accept b).complete (emitted r _)) :=
    andThen_eq_next.mpr ⟨_, feedByte_eq_next.mpr ⟨_, hu, rfl⟩, rfl⟩
  have constants : State.initial (P := P) u.hasSink u.ctx = State.initial s.hasSink s.ctx := by rw [h.frame]
  refine ⟨((u.withSurroundings r).accept b).complete (emitted r (u.withSurroundings r)), ?_, rfl⟩
  calc feedBytes (u.accept b).accepted (State.initial u.hasSink u.ctx)
    _ = feedBytes (s.accepted ++ [b]) (State.initial s.hasSink s.ctx) := by
      rw [State.accept_accepted, h.accepted_eq, constants]
    _ = .next _ := by rw [feedBytes_append, hr, andThen_next, last]

/-- What a sink reads of a pending dispatch (R126 to R130), for every length the buffer can hold. -/
theorem portDispatch_of_pending {s : State P (BitVec W)} (hp : s.phase = .live) (hd : s.dispatchPending = true)
    (hc : s.cursor.toNat ≤ P.maxPacketLen) :
    portDispatch s = { ctx := s.ctx, len := s.cursor, data := s.assembled } := by
  have read : ∀ k ∈ List.range s.cursor.toNat, s.readPort (BitVec.ofNat P.raddrW k).toNat = s.mem.cellAt k := by
    intro k hk
    have hk : k < P.maxPacketLen := (List.mem_range.mp hk).trans_le hc
    rw [Params.toNat_ofNat_raddr hk, State.readPort, if_pos hk]
  simp only [portDispatch, outputs, hp, hd, State.assembled, List.map_congr_left read]

/-- The free values of a cycle do not show in a dispatch (R131). -/
theorem pendingDispatches_tick {s : State P (BitVec W)} (hp : s.phase = .live) :
    pendingDispatches s.tick = pendingDispatches s := by
  cases hd : s.dispatchPending <;> simp [pendingDispatches, portDispatch, outputs, State.readPort, hp, hd]

theorem Refines.tick {s : State P (BitVec W)} (h : Refines s) : Refines s.tick := by
  intro hp
  obtain ⟨run, completed⟩ := h hp
  exact ⟨run, completed.trans (congrArg _ (pendingDispatches_tick (s := s) hp).symm)⟩

theorem pendingDispatches_of_not_pending {s : State P (BitVec W)} (hd : s.dispatchPending = false) :
    pendingDispatches s = [] := by
  simp [pendingDispatches, hd]

/-- After an instruction outside a dispatch all events but those it emitted have been ended. -/
theorem ExecCase.events_eq_completed_append {i : Instr} {s u : State P (BitVec W)} (h : ExecCase s u i)
    (hd : s.dispatchPending = false) (hs : s.events = s.completed ++ pendingDispatches s) :
    u.events = u.completed ++ emitted s u := by
  have ended : s.events = u.completed := by
    rw [hs, pendingDispatches_of_not_pending hd, List.append_nil, h.frame]
  rw [emitted, h.events_eq, List.drop_left, ended]

/-- A transfer leaves pending exactly the dispatch its instruction emitted (R125). -/
theorem ExecCase.pendingDispatches_eq {i : Instr} {s u : State P (BitVec W)} (h : ExecCase s u i)
    (hp : s.phase = .live) (b : Byte) :
    pendingDispatches ((u.accept b).setDispatchPending (!(emitted s u).isEmpty)) = emitted s u := by
  cases h with
  | dispatch may hc hu =>
    have one : emitted s u = [{ ctx := s.ctx, len := s.cursor, data := s.assembled }] := by
      rw [emitted, hu, List.drop_left]
      rfl
    have shown : portDispatch ((u.accept b).setDispatchPending true) =
        { ctx := s.ctx, len := s.cursor, data := s.assembled } := by
      subst hu
      exact portDispatch_of_pending hp rfl hc
    rw [one]
    exact congrArg (fun d => [d]) shown
  | _ => subst_vars; simp [emitted, pendingDispatches]

theorem StepCase.refines {s t : State P (BitVec W)} (h : StepCase s t) (hs : Refines s) : Refines t := by
  cases h with
  | idle _ ht | feedEmpty _ _ _ _ ht => exact ht ▸ hs
  | create hasSink ctx _ _ _ ht => exact ht ▸ initial_refines hasSink ctx
  | reset _ _ _ _ ht => exact ht ▸ initial_refines s.hasSink s.ctx
  | destroy _ _ _ _ ht => exact ht ▸ nofun
  | hold _ rest _ _ _ ht =>
    have hs : Refines (s.setInputs rest) := hs
    exact ht ▸ hs.tick
  | leave _ rest _ _ hp hd _ ht =>
    obtain ⟨-, ended⟩ := hs hp
    have ended : s.events = s.completed ++ [portDispatch s] ++ [] := by
      rwa [pendingDispatches, if_pos hd, ← List.append_nil (s.completed ++ _)] at ended
    have left : Refines ((s.setInputs rest).leaveDispatch (portDispatch s)) :=
      State.IsRun.refines (hs.isRun hp) ended
    exact ht ▸ left.tick
  | feedByte b bs rest u _ hp hd hu ht =>
    obtain ⟨-, ended⟩ := hs hp
    have idle : pendingDispatches t = [] :=
      pendingDispatches_of_not_pending (ht ▸ hu.dispatchPending_eq.trans hd)
    have ended : t.events = t.completed ++ [] :=
      ht ▸ (hu.events_eq_completed_append hd ended).trans (List.append_nil _).symm
    exact State.IsRun.refines (ht ▸ hu.isRun hp (hs.isRun hp)) (idle ▸ ended)
  | transfer p rest u _ _ _ hp hd hu ht =>
    obtain ⟨-, ended⟩ := hs hp
    have emits := hu.pendingDispatches_eq hp p.inData
    have taken : Refines ((u.accept p.inData).setDispatchPending (!(emitted s u).isEmpty)) :=
      State.IsRun.refines (hu.isRun hp (hs.isRun hp))
        ((hu.events_eq_completed_append hd ended).trans (congrArg (u.completed ++ ·) emits.symm))
    exact ht ▸ taken.tick

/-- Settles O58: every case of a step keeps the run and the account of the dispatches ended. -/
theorem stepKeepsRefinement : Obligations.StepKeepsRefinement :=
  ⟨fun _ _ hs h => (stepFor_stepCase h).refines hs, fun _ _ _ _ hs h => (stepFor_stepCase h).refines hs⟩

end Sys2Proof.Machine
end

section
/-! Several decoders (R112, R117, R153). -/

namespace Sys2Proof.Machine

variable {P : Params} {W : Nat}

/-- A step of one decoder ends in a next state exactly when the step it makes alone does, and puts that state in its
place. -/
theorem stepDecoder_eq_next {h : Nat} {ds es : List (State P (BitVec W))} :
    stepDecoder h ds = .next es ↔ ∃ s t, ds[h]? = some s ∧ stepFor s = .next t ∧ es = ds.set h t := by
  cases hs : ds[h]? with
  | none => simp [stepDecoder, hs]
  | some s => cases ht : stepFor s <;> simp [stepDecoder, hs, ht, eq_comm]

/-- Settles O60: a step writes one place of the list of decoders, and CREATE appends to it. -/
theorem decodersAreIndependent : Obligations.DecodersAreIndependent := by
  constructor
  · intro h ds es hstep
    obtain ⟨s, t, hs, ht, rfl⟩ := stepDecoder_eq_next.mp hstep
    obtain ⟨hlt, -⟩ := List.getElem?_eq_some_iff.mp hs
    exact ⟨fun k hk => List.getElem?_set_ne hk.symm, s, t, hs, ht, List.getElem?_set_self hlt⟩
  · exact fun hasSink ctx ds => ⟨fun k hk => List.getElem?_append_left hk, List.getElem?_concat_length⟩

end Sys2Proof.Machine
end

section
/-! The outputs of a live block (R122, R126 to R131): the two handshake signals are DISPATCH_PENDING, and during a dispatch the
others show the packet. -/

namespace Sys2Proof.Machine

variable {P : Params} {W : Nat}

/-- The outputs during a dispatch (R126 to R130). -/
theorem outputs_of_pending {s : State P (BitVec W)} (hp : s.phase = .live) (hd : s.dispatchPending = true) (a : P.Raddr) :
    outputs s a =
      { inReady := false, pktValid := true, pktLen := s.cursor, pktCtx := s.ctx, pktRdata := s.readPort a.toNat } := by
  simp only [outputs, hp, hd]

/-- The outputs during a dispatch depend neither on the cycle nor on what comes next. -/
theorem outputs_of_pending_congr {s : State P (BitVec W)} (hp : s.phase = .live) (hd : s.dispatchPending = true)
    (xs : List (Input P (BitVec W))) (n : Nat) (a : P.Raddr) :
    outputs { s with inputs := xs, cycle := n } a = outputs s a := by
  have shown := outputs_of_pending (s := { s with inputs := xs, cycle := n }) hp hd a
  exact shown.trans (outputs_of_pending hp hd a).symm

/-- `in_ready` and `pkt_valid` of a live block, in a dispatch and outside one (R122, R126). -/
theorem outputs_handshake {s : State P (BitVec W)} (hp : s.phase = .live) (a : P.Raddr) :
    (outputs s a).inReady = !s.dispatchPending ∧ (outputs s a).pktValid = s.dispatchPending := by
  cases hd : s.dispatchPending <;> simp [outputs, hp, hd]

/-- The read port shows the bytes of the packet and 0x00 beyond them, in BUF or out of it (R129, R130). -/
theorem Fits.readPort_eq {s : State P (BitVec W)} (h : Fits s) (a : Nat) :
    s.readPort a = if a < s.cursor.toNat then s.mem.cellAt a else 0 := by
  unfold State.readPort
  by_cases below : a < s.cursor.toNat
  · rw [if_pos (below.trans_le h.cursor_le), if_pos below]
  · rw [Memory.cellAt_of_le h.mem_below (Nat.le_of_not_lt below), ite_self, if_neg below]

/-- Settles O51: the invariant gives the bounds on the length and what is beyond it. -/
theorem outputsDuringDispatch : Obligations.OutputsDuringDispatch := by
  intro P W s a hp
  obtain ⟨ready, valid⟩ := outputs_handshake hp a
  refine ⟨ready, valid, fun hd hs => ?_⟩
  obtain ⟨fits, pending⟩ := (inv_iff_of_live hp).mp hs
  obtain ⟨-, pos, -⟩ := pending hd
  rw [outputs_of_pending hp hd]
  exact ⟨rfl, pos, fits.cursor_le, rfl, fits.readPort_eq a.toNat⟩

end Sys2Proof.Machine
end

section
/-! The rising edge out of reset (R123 to R125, R132 to R135): its cases as equations, and what a step over one can do. -/

namespace Sys2Proof.Machine

variable {P : Params} {C : Type} {W : Nat} {s : State P (BitVec W)} {p : Pins P} {rest : List (Input P (BitVec W))}

/-- A step with a clock edge listed is that edge, and a new cycle begins. -/
theorem stepFor_edge (hx : s.inputs = .edge p :: rest) :
    stepFor s = andThen (edge p (s.setInputs rest)) fun t => .next t.tick := stepFor_of_inputs hx

/-- An edge of a live block out of reset (R135). -/
theorem stepFor_liveEdge (hp : s.phase = .live) (hx : s.inputs = .edge p :: rest) (hr : p.rst = false) :
    stepFor s = andThen (liveEdge p (s.setInputs rest)) fun t => .next t.tick := by
  simp [stepFor_edge hx, edge, hp, hr]

/-- A pending dispatch the sink does not end holds the block (R133). -/
theorem stepFor_stalled (hp : s.phase = .live) (hd : s.dispatchPending = true) (hx : s.inputs = .edge p :: rest)
    (hr : p.rst = false) (notReady : p.pktReady = false) : stepFor s = .next (s.setInputs rest).tick := by
  simp [stepFor_liveEdge hp hx hr, liveEdge, hd, notReady]

/-- `pkt_ready` ends a pending dispatch (R132). -/
theorem stepFor_ended (hp : s.phase = .live) (hd : s.dispatchPending = true) (hx : s.inputs = .edge p :: rest)
    (hr : p.rst = false) (ready : p.pktReady = true) :
    stepFor s = .next ((s.setInputs rest).leaveDispatch (portDispatch s)).tick := by
  have sameRead : portDispatch (s.setInputs rest) = portDispatch s := rfl
  simp [stepFor_liveEdge hp hx hr, liveEdge, hd, ready, sameRead]

/-- With no dispatch pending and no byte offered nothing happens (R135). -/
theorem stepFor_notOffered (hp : s.phase = .live) (hd : s.dispatchPending = false) (hx : s.inputs = .edge p :: rest)
    (hr : p.rst = false) (hv : p.inValid = false) : stepFor s = .next (s.setInputs rest).tick := by
  simp [stepFor_liveEdge hp hx hr, liveEdge, hd, hv]

/-- With no dispatch pending a byte that is offered is transferred (R123, R124). -/
theorem stepFor_offered (hp : s.phase = .live) (hd : s.dispatchPending = false) (hx : s.inputs = .edge p :: rest)
    (hr : p.rst = false) (hv : p.inValid = true) :
    stepFor s = andThen (transfer p.inData (s.setInputs rest)) fun t => .next t.tick := by
  simp [stepFor_liveEdge hp hx hr, liveEdge, hd, hv]

/-- What a sink reads of a dispatch carries CTX and CURSOR (R127, R128). -/
theorem portDispatch_ctx_len (hp : s.phase = .live) (hd : s.dispatchPending = true) :
    portDispatch s = { ctx := s.ctx, len := s.cursor, data := (portDispatch s).data } := by
  simp [portDispatch, outputs_of_pending hp hd]

/-- Settles O49: the cases of `liveEdge` without a transfer. -/
theorem edgeWithoutTransfer : Obligations.EdgeWithoutTransfer := by
  refine fun s p rest hp hx hr => ⟨fun hd notReady => stepFor_stalled hp hd hx hr notReady, fun hd ready => ?_,
    fun hd hv => stepFor_notOffered hp hd hx hr hv⟩
  rw [← portDispatch_ctx_len hp hd]
  exact stepFor_ended hp hd hx hr ready

/-- An instruction emitted an event exactly if it changed the trace. -/
theorem ExecCase.emitted_eq_nil_iff {i : Instr} {s t : State P C} (h : ExecCase s t i) :
    emitted s t = [] ↔ t.events = s.events := by
  simp [emitted, h.events_eq]

/-- Settles O48: the transfer is `exec` of the decoded instruction with the two notes, and its fault is the step's. -/
theorem transferRunsDecoded : Obligations.TransferRunsDecoded := by
  intro s p rest i hp hd hx hr hv hi
  obtain rfl : decodeByte Config.params p.inData = i := congrArg Prod.fst (Except.ok.inj hi)
  rw [step_eq_stepFor, stepFor_offered hp hd hx hr hv]
  refine ⟨fun t ht => ?_, fun f hf => ?_⟩
  · have emits : emitted (s.setInputs rest) t = [] ↔ t.events = s.events := (exec_cases ht).2.emitted_eq_nil_iff
    have pending : (!(emitted (s.setInputs rest) t).isEmpty) = decide (t.events ≠ s.events) :=
      Bool.eq_iff_iff.mpr (by simp [emits])
    have ran : transfer p.inData (s.setInputs rest) =
        .next ((t.accept p.inData).setDispatchPending (!(emitted (s.setInputs rest) t).isEmpty)) :=
      andThen_eq_next.mpr ⟨t, exec_eq_execFor _ _ ▸ ht, rfl⟩
    rw [ran, pending]
    rfl
  · have stopped : transfer p.inData (s.setInputs rest) = .fault f :=
      andThen_eq_fault.mpr (.inl (exec_eq_execFor _ _ ▸ hf))
    rw [stopped, andThen_fault]

/-- Settles O53: of the cases of an edge out of reset one accepts a byte, one ends a dispatch, one does neither. -/
theorem edgeDoesOneThing : Obligations.EdgeDoesOneThing := by
  intro s t p rest hx hr h
  obtain ⟨u, he, hu⟩ := andThen_eq_next.mp ((stepFor_edge hx).symm.trans h)
  cases hu
  obtain ⟨rst, -⟩ | ⟨-, rfl, -⟩ | ⟨-, -, hd, -, rfl⟩ | ⟨-, -, hd, -, v, hv, rfl⟩ := edge_cases he
  · simp [hr] at rst
  · exact ⟨.inl rfl, .inl rfl, Nat.le_succ _⟩
  · exact ⟨.inl rfl, .inr ⟨_, rfl, hd⟩, by simp [State.leaveDispatch, Nat.add_assoc]⟩
  · obtain ⟨-, hcase⟩ := execFor_cases hv
    have accepted : v.accepted = s.accepted := hcase.accepted_eq
    have completed : v.completed = s.completed := by rw [hcase.frame]; rfl
    exact ⟨.inr ⟨by simp [accepted], hd⟩, .inl completed, by simp [accepted, completed, Nat.add_right_comm]⟩

/-- While the sink has a dispatch and does not end it, the machine's edges pass and change nothing but the count of cycles. -/
theorem core_run_stalled {ps : List Pins} {s : State} {rest : List Input} (hp : s.phase = .live)
    (hd : s.dispatchPending = true) (held : ∀ p ∈ ps, p.rst = false ∧ p.pktReady = false)
    (hx : s.inputs = ps.map .edge ++ rest) :
    Sys2Proof.core.run ps.length s = .next { s with inputs := rest, cycle := s.cycle + ps.length } := by
  induction ps generalizing s with
  | nil =>
    have stays : s.setInputs rest = s := State.setInputs_eq_self hx
    exact congrArg Host.Outcome.next stays.symm
  | cons p ps ih =>
    obtain ⟨⟨hr, notReady⟩, held⟩ := List.forall_mem_cons.mp held
    have first : step s = .next (s.setInputs (ps.map .edge ++ rest)).tick := stepFor_stalled hp hd hx hr notReady
    have later := ih (s := (s.setInputs (ps.map .edge ++ rest)).tick) hp hd held rfl
    rw [List.length_cons, core_run_next first, Nat.add_comm ps.length, ← Nat.add_assoc]
    exact later

/-- Settles O50: the edges leave all that the outputs of a dispatch show as it is. -/
theorem pendingDispatchFreezes : Obligations.PendingDispatchFreezes := by
  refine fun ps s rest hp hd held hx => ⟨_, core_run_stalled hp hd held hx, rfl, fun a => ?_⟩
  have kept := outputs_of_pending_congr hp hd rest (s.cycle + ps.length) a
  have notReady : (outputs s a).inReady = false := by rw [outputs_of_pending hp hd]
  exact ⟨kept, (congrArg Outputs.inReady kept).trans notReady⟩

end Sys2Proof.Machine
end

section
/-! A decoder without a sink (R134): the dispatch condition never holds, so nothing is emitted and nothing becomes pending. -/

namespace Sys2Proof.Machine

variable {P : Params} {C : Type} {W : Nat}

/-- Nothing has been dispatched, and nothing can be: no sink, no pending dispatch, no event. -/
structure State.Silent (s : State P C) : Prop where
  noSink : s.hasSink = false
  notPending : s.dispatchPending = false
  noEvents : s.events = []

/-- An instruction keeps a decoder silent: without a sink the dispatch condition fails (R74). -/
theorem ExecCase.silent {i : Instr} {s t : State P C} (h : ExecCase s t i) (hs : s.Silent) : t.Silent := by
  obtain ⟨noSink, notPending, noEvents⟩ := hs
  cases h with
  | dispatch may _ _ =>
    obtain ⟨-, -, sink⟩ := mayDispatch_eq_true.mp may
    simp [noSink] at sink
  | _ => subst_vars; exact ⟨noSink, notPending, noEvents⟩

/-- Every step of a live silent decoder keeps it silent; a reset does so because it keeps HAS_SINK (log entry 7). -/
theorem StepCase.silent {s t : State P (BitVec W)} (h : StepCase s t) (hp : s.phase = .live) (hs : s.Silent) :
    t.Silent := by
  obtain ⟨noSink, notPending, noEvents⟩ := hs
  cases h with
  | create _ _ _ _ unconstructed _ => simp [hp] at unconstructed
  | leave _ _ _ _ _ pending _ _ => simp [notPending] at pending
  | reset _ _ _ _ ht => exact ht ▸ ⟨noSink, rfl, rfl⟩
  | idle _ ht | feedEmpty _ _ _ _ ht | destroy _ _ _ _ ht | hold _ _ _ _ _ ht =>
    exact ht ▸ ⟨noSink, notPending, noEvents⟩
  | feedByte b bs rest u _ _ _ hu ht =>
    obtain ⟨noSink, notPending, noEvents⟩ := hu.silent ⟨noSink, notPending, noEvents⟩
    exact ht ▸ ⟨noSink, notPending, noEvents⟩
  | transfer p rest u _ _ _ _ _ hu ht =>
    obtain ⟨noSink, -, noEvents⟩ := hu.silent ⟨noSink, notPending, noEvents⟩
    have noneEmitted : emitted s u = [] := by simp [emitted, noEvents]
    exact ht ▸ ⟨noSink, by simp [noneEmitted], noEvents⟩

/-- Settles O52: every step keeps the decoder silent, and with no dispatch pending the handshake signals follow. -/
theorem noSinkNoDispatch : Obligations.NoSinkNoDispatch := by
  intro s t hp noSink notPending noEvents h
  obtain ⟨noSink, notPending, noEvents⟩ := (stepFor_stepCase h).silent hp ⟨noSink, notPending, noEvents⟩
  refine ⟨noSink, notPending, noEvents, fun live a => ?_⟩
  obtain ⟨ready, valid⟩ := outputs_handshake live a
  exact ⟨valid.trans notPending, ready.trans (by rw [notPending]; rfl)⟩

end Sys2Proof.Machine
end

section
/-! The nine anomalies (R139, R143, R144): when each holds, which coincide, and what each does. -/

namespace Sys2Proof.Machine

variable {P : Params} {C : Type}

@[simp] theorem flagIf_false (a : Anomaly) : flagIf false a = [] := rfl

@[simp] theorem flagIf_true (a : Anomaly) : flagIf true a = [a] := rfl

@[simp] theorem mem_flagIf {c : Bool} {a b : Anomaly} : a ∈ flagIf c b ↔ c = true ∧ a = b := by
  cases c <;> simp

@[simp] theorem length_flagIf_le_one (c : Bool) (a : Anomaly) : (flagIf c a).length ≤ 1 := by
  cases c <;> simp

/-- The condition column of R139. -/
def Anomaly.Condition (i : Instr) (s : State P C) : Anomaly → Prop
  | .an1 => i = .startMarker ∧ s.inPacket = true
  | .an2 => i = .endMarker ∧ s.inPacket = true ∧ s.cursor.toNat = 0
  | .an3 => i = .endMarker ∧ s.inPacket = false
  | .an4 => ∃ b, i = .data b ∧ s.inPacket = false
  | .an5 => ∃ b, i = .data b ∧ s.inPacket = true ∧ s.cursor.toNat = P.maxPacketLen
  | .an6 => i = .endMarker ∧ s.inPacket = true ∧ 0 < s.cursor.toNat ∧ s.hasSink = false
  | .an7 => i.byteClass ≠ .data ∧ s.pendingUnescape = true
  | .an8 => i = .escMarker ∧ s.inPacket = false
  | .an9 => ∃ b, i = .data b ∧ s.inPacket = true ∧ s.pendingUnescape = true ∧ s.hasRoom = true ∧
      isEscapedMarker P b = false

/-- The labels of `anomalies` are those whose entry of the table holds. -/
theorem mem_anomalies_iff {i : Instr} {s : State P C} {a : Anomaly} : a ∈ anomalies i s ↔ a.Condition i s := by
  cases i <;> cases a <;> simp [anomalies, Anomaly.Condition, Instr.byteClass, State.hasRoom, and_assoc]

/-- The anomalies that AN7 may accompany (R144). -/
abbrev Anomaly.besideAn7 : List Anomaly := [.an1, .an2, .an3, .an6, .an8]

/-- R144 of a list of anomalies. -/
def CoincideOnlyWithAn7 (l : List Anomaly) : Prop :=
  l.length ≤ 2 ∧ (l.length = 2 → .an7 ∈ l ∧ ∃ a ∈ l, a ∈ Anomaly.besideAn7)

theorem coincideOnlyWithAn7_of_length_le_one {l : List Anomaly} (h : l.length ≤ 1) : CoincideOnlyWithAn7 l :=
  ⟨by omega, fun two => by omega⟩

/-- At most one anomaly of a marker's own, and AN7 beside it: two anomalies are that one and AN7. -/
theorem coincideOnlyWithAn7_of_perm {l own : List Anomaly} {pending : Bool} (h : l.Perm (own ++ flagIf pending .an7))
    (one : own.length ≤ 1) (beside : ∀ a ∈ own, a ∈ Anomaly.besideAn7) : CoincideOnlyWithAn7 l := by
  have flag := length_flagIf_le_one pending .an7
  have len : l.length = own.length + (flagIf pending .an7).length := h.length_eq.trans List.length_append
  refine ⟨by omega, fun two => ?_⟩
  obtain ⟨a, ha⟩ := List.exists_mem_of_length_pos (l := own) (by omega)
  obtain ⟨x, hx⟩ := List.exists_mem_of_length_pos (l := flagIf pending .an7) (by omega)
  obtain rfl := (mem_flagIf.mp hx).2
  exact ⟨h.mem_iff.mpr (List.mem_append_right _ hx), a, h.mem_iff.mpr (List.mem_append_left _ ha), beside a ha⟩

/-- The anomalies of END besides AN7. -/
def endAnomalies (s : State P C) : List Anomaly :=
  flagIf (s.inPacket && decide (s.cursor.toNat = 0)) .an2 ++ flagIf (!s.inPacket) .an3 ++
    flagIf (s.inPacket && decide (0 < s.cursor.toNat) && !s.hasSink) .an6

/-- AN2, AN3 and AN6 exclude each other: no packet, an empty one, one that is not empty. -/
theorem length_endAnomalies_le_one (s : State P C) : (endAnomalies s).length ≤ 1 := by
  cases opened : s.inPacket with
  | false => simp [endAnomalies, opened]
  | true =>
    obtain empty | pos := Nat.eq_zero_or_pos s.cursor.toNat
    · simp [endAnomalies, opened, empty]
    · simp [endAnomalies, opened, pos, pos.ne']

/-- AN4, AN5 and AN9 exclude each other: no packet, a full buffer, a buffer with room. -/
theorem length_anomalies_data_le_one (b : Byte) (s : State P C) : (anomalies (.data b) s).length ≤ 1 := by
  cases opened : s.inPacket with
  | false => simp [anomalies, opened]
  | true =>
    by_cases full : s.cursor.toNat = P.maxPacketLen <;> simp [anomalies, opened, full]

theorem anomalies_coincideOnlyWithAn7 (i : Instr) (s : State P C) : CoincideOnlyWithAn7 (anomalies i s) := by
  cases i with
  | startMarker =>
    refine coincideOnlyWithAn7_of_perm (own := flagIf s.inPacket .an1) (.refl _) (length_flagIf_le_one _ _) ?_
    simp
  | endMarker =>
    refine coincideOnlyWithAn7_of_perm (own := endAnomalies s) (.refl _) (length_endAnomalies_le_one s) ?_
    simp only [endAnomalies, List.mem_append, mem_flagIf]
    rintro _ ((⟨-, rfl⟩ | ⟨-, rfl⟩) | ⟨-, rfl⟩) <;> decide
  | escMarker =>
    refine coincideOnlyWithAn7_of_perm (own := flagIf (!s.inPacket) .an8) List.perm_append_comm
      (length_flagIf_le_one _ _) ?_
    simp
  | data b => exact coincideOnlyWithAn7_of_length_le_one (length_anomalies_data_le_one b s)

/-- Settles O37: each class has at most one anomaly of its own, and only a marker may have AN7 beside it. -/
theorem anomaliesThatCoincide : Obligations.AnomaliesThatCoincide := anomalies_coincideOnlyWithAn7

theorem execFor_next_unique {i : Instr} {s t u : State P C} (ht : execFor i s = .next t) (hu : execFor i s = .next u) :
    t = u :=
  Host.Outcome.next.inj (ht.symm.trans hu)

/-- Outside a packet END changes nothing (R77). -/
theorem execFor_end_of_idle {s : State P C} (hp : s.phase = .live) (closed : s.inPacket = false) :
    execFor .endMarker s = .next s := by
  have unchanged := execFor_of_idle hp closed (i := .endMarker) nofun
  rwa [State.setPendingUnescape_eq_self (by simp)] at unchanged

/-- START leaves an open, empty packet and emits nothing (R67). -/
theorem ExecCase.opens_of_start {s t : State P C} (h : ExecCase s t .startMarker) :
    t.inPacket = true ∧ t.cursor = 0 ∧ t.events = s.events := by
  cases h with
  | start m _ ht => subst ht; exact ⟨rfl, rfl, rfl⟩

/-- A marker keeps a pending escape (R85, R86). -/
theorem ExecCase.pending_of_marker {i : Instr} {s t : State P C} (h : ExecCase s t i) (marker : i.byteClass ≠ .data)
    (hu : s.pendingUnescape = true) : t.pendingUnescape = true := by
  rw [← Bool.not_eq_false, h.escape_cleared_iff hu]
  exact fun cleared => marker cleared.1

/-- Settles O38: each anomaly's condition picks one case of its instruction. -/
theorem anomalyEffects : Obligations.AnomalyEffects := by
  intro i s t hw h
  obtain ⟨hp, hcase⟩ := exec_cases h
  rw [exec_eq_execFor] at h
  simp only [mem_anomalies_iff]
  refine ⟨?an1, ?an2, ?an3, ?an4, ?an5, ?an6, ?an7, ?an8, ?an9⟩
  case an1 =>
    rintro ⟨rfl, -⟩
    exact ⟨rfl, hcase.opens_of_start⟩
  case an2 =>
    rintro ⟨rfl, -, empty⟩
    exact ⟨rfl, execFor_next_unique h (execFor_end_of_not_mayDispatch hp (by simp [State.mayDispatch, empty]))⟩
  case an3 =>
    rintro ⟨rfl, closed⟩
    exact ⟨rfl, execFor_next_unique h (execFor_end_of_idle hp closed)⟩
  case an4 =>
    rintro ⟨b, rfl, closed⟩
    exact ⟨rfl, execFor_next_unique h (execFor_data_of_idle hp closed b)⟩
  case an5 =>
    rintro ⟨b, rfl, opened, full⟩
    exact ⟨rfl, execFor_next_unique h (execFor_data_of_full hp opened (hasRoom_eq_false.mpr full.ge) b)⟩
  case an6 =>
    rintro ⟨rfl, -, -, noSink⟩
    exact ⟨rfl, execFor_next_unique h (execFor_end_of_not_mayDispatch hp (by simp [State.mayDispatch, noSink]))⟩
  case an7 =>
    rintro ⟨marker, pending⟩
    exact ⟨marker, hcase.pending_of_marker marker pending⟩
  case an8 =>
    rintro ⟨rfl, -⟩
    exact ⟨rfl, execFor_next_unique h (execFor_esc hp)⟩
  case an9 =>
    rintro ⟨b, rfl, opened, pending, room, -⟩
    obtain rfl := execFor_next_unique h (execFor_data_of_room hp opened room b)
    refine ⟨b, rfl, rfl, rfl, ?_⟩
    rw [Memory.cellAt_update hw, if_pos rfl, dataOperand, if_pos pending, unescape]

end Sys2Proof.Machine
end
